-- ==== Sys2Proof/Word.lean ====
section
/-!
DEFINITION. The two plain word types of the machine: the byte, which is the width of a register, of a memory
cell, of an address and of the program counter (spec/00_scope.md R5, R6), and the index of a register.
-/

namespace Sys2Proof

/-- A byte, an unsigned integer 0..255 with bit 7 the most significant (00_scope.md R6). -/
abbrev Byte := BitVec 8

/-- The index of one of the eight registers `R[0]` .. `R[7]` (10_state.md R21). -/
abbrev RegIdx := Fin 8

end Sys2Proof
end

