-- ==== Sys2Proof/Config.lean ====
section
/-!
DEFINITION. What is fixed for the machine: the closed lists of its mnemonics, formats and ALU operations, the fixed
numbers of spec/00_scope.md R5, and the one parameter the spec leaves OPEN. The opcode map, which R5 also lists as
configuration, stands with the decoder and the encoder in Sys2Proof/Decode.lean.
-/

namespace Sys2Proof

/-- The 20 instructions by name, in the order of the table of 30_encoding.md R66. -/
inductive Mnemonic where
  | ldi | prn | push | pop | call | ret | cmp | jmp | jeq | jne
  | add | mul | and | or | xor | mod | shl | shr | not | hlt
  deriving DecidableEq, Repr

/-- The four instruction formats of 30_encoding.md R61. -/
inductive Format where
  /-- `Z`: the opcode byte alone. -/
  | z
  /-- `R`: one register index. -/
  | r
  /-- `RR`: two register indices. -/
  | rr
  /-- `RI`: a register index and an immediate byte. -/
  | ri
  deriving DecidableEq, Repr

/-- The ten operations of the ALU (45_alu.md R149). -/
inductive AluOp where
  | add | mul | and | or | xor | not | mod | shl | shr | cmp
  deriving DecidableEq, Repr

/-- `SP_INDEX`: register 7 is the stack pointer (00_scope.md R5, 10_state.md R22). -/
def Config.spIndex : RegIdx := 7

/-- `SP_INIT`: the stack pointer at the start of a run (00_scope.md R5, 70_reset_and_hazards.md R203). -/
def Config.spInit : Byte := 0xF4

/-- `MEM_SIZE`: the number of memory cells (00_scope.md R5). -/
def Config.memSize : Nat := 256

/-- `PC_RESET`: the program counter after reset (00_scope.md R5). -/
def Config.pcReset : Byte := 0

/-- `LOAD_BASE`: the address of the first program byte (00_scope.md R5, 20_memory.md R46). -/
def Config.loadBase : Byte := 0

/-- `OUT_SEPARATOR`: the text the output sink puts between two printed values. The spec leaves it OPEN
(92_eei_decisions.md D14, 93_implementation_defined.md V9), so it has no value here. UNVERIFIED, safe: log entry 13. -/
opaque Config.outSeparator : List Char

end Sys2Proof
end

