-- ==== Sys2Proof/Syntax.lean ====
section
/-!
DEFINITION. The instructions as data: one constructor per row of spec/opcode_table.json, in the table's order. Operand
bytes are kept whole (30_encoding.md R64): a register-index byte above 7 is an instruction that raises
InvalidRegister when it is executed (R65), so it has to be expressible.
-/

namespace Sys2Proof

/-- One decoded instruction with its operand bytes `a`, `b` (30_encoding.md R61, R64, R66). -/
inductive Instr where
  /-- `LDI Ra, imm8` (41_load_immediate_print.md R100). -/
  | ldi (a imm : Byte)
  /-- `PRN Ra` (41_load_immediate_print.md R101). -/
  | prn (a : Byte)
  /-- `PUSH Ra` (42_stack.md R110). -/
  | push (a : Byte)
  /-- `POP Ra` (42_stack.md R111). -/
  | pop (a : Byte)
  /-- `CALL Ra` (43_subroutine.md R120). -/
  | call (a : Byte)
  /-- `RET` (43_subroutine.md R121). -/
  | ret
  /-- `CMP Ra, Rb` (44_compare_branch.md R130). -/
  | cmp (a b : Byte)
  /-- `JMP Ra` (44_compare_branch.md R131). -/
  | jmp (a : Byte)
  /-- `JEQ Ra` (44_compare_branch.md R132). -/
  | jeq (a : Byte)
  /-- `JNE Ra` (44_compare_branch.md R133). -/
  | jne (a : Byte)
  /-- `ADD Ra, Rb` (45_alu.md R140). -/
  | add (a b : Byte)
  /-- `MUL Ra, Rb` (45_alu.md R141). -/
  | mul (a b : Byte)
  /-- `AND Ra, Rb` (45_alu.md R142). -/
  | and (a b : Byte)
  /-- `OR Ra, Rb` (45_alu.md R143). -/
  | or (a b : Byte)
  /-- `XOR Ra, Rb` (45_alu.md R144). -/
  | xor (a b : Byte)
  /-- `MOD Ra, Rb` (45_alu.md R146). -/
  | mod (a b : Byte)
  /-- `SHL Ra, Rb` (45_alu.md R147). -/
  | shl (a b : Byte)
  /-- `SHR Ra, Rb` (45_alu.md R148). -/
  | shr (a b : Byte)
  /-- `NOT Ra` (45_alu.md R145). -/
  | not (a : Byte)
  /-- `HLT` (46_halt.md R160). -/
  | hlt
  deriving DecidableEq, Repr

end Sys2Proof
end

