-- ==== Sys2Proof/WellFormed.lean ====
section
/-!
DEFINITION. Which operand bytes of an instruction are register indices (spec/30_encoding.md R74) and when an
instruction is well formed: every one of them is 0..7 (R65). An ill-formed instruction still decodes; executing it
raises InvalidRegister.
-/

namespace Sys2Proof

/-- The operand bytes that are register indices, `a` before `b` (30_encoding.md R74): format R: `a`; format RR: `a`
and `b`; format RI: `a` only; format Z: none. -/
def Instr.regOperands : Instr → List Byte
  | .ldi a _ => [a]
  | .prn a => [a]
  | .push a => [a]
  | .pop a => [a]
  | .call a => [a]
  | .ret => []
  | .cmp a b => [a, b]
  | .jmp a => [a]
  | .jeq a => [a]
  | .jne a => [a]
  | .add a b => [a, b]
  | .mul a b => [a, b]
  | .and a b => [a, b]
  | .or a b => [a, b]
  | .xor a b => [a, b]
  | .mod a b => [a, b]
  | .shl a b => [a, b]
  | .shr a b => [a, b]
  | .not a => [a]
  | .hlt => []

/-- Every register-index byte is 0..7 (30_encoding.md R65). -/
def Instr.wellFormed (i : Instr) : Bool := i.regOperands.all fun b => decide (b.toNat ≤ 7)

end Sys2Proof
end

