-- ==== Sys2Proof/Decode.lean ====
section
/-!
DEFINITION. The opcode map (spec/30_encoding.md R66), the decoder and the encoder. Both are written over an arbitrary
map from mnemonics to bytes, as 92_eei_decisions.md D1 asks, and then taken at the map of R66. The decoder is total:
any list of bytes gives an instruction with the bytes after it, or a rejection by name.
-/

namespace Sys2Proof

/-- `OPCODE_MAP` (30_encoding.md R66). LDI, PRN and HLT are the source's; the other 17 are the spec's general
knowledge (92_eei_decisions.md D1). UNVERIFIED, unsafe for those 17: log entry 1. -/
def Config.opcodeMap : Mnemonic → Byte
  | .ldi => 0x82
  | .prn => 0x47
  | .push => 0x45
  | .pop => 0x46
  | .call => 0x50
  | .ret => 0x11
  | .cmp => 0xA7
  | .jmp => 0x54
  | .jeq => 0x55
  | .jne => 0x56
  | .add => 0xA0
  | .mul => 0xA2
  | .and => 0xA8
  | .or => 0xAA
  | .xor => 0xAB
  | .mod => 0xA4
  | .shl => 0xAC
  | .shr => 0xAD
  | .not => 0x69
  | .hlt => 0x01

/-- The rows of the opcode map, in the table's order (30_encoding.md R66). -/
def Mnemonic.all : List Mnemonic :=
  [.ldi, .prn, .push, .pop, .call, .ret, .cmp, .jmp, .jeq, .jne,
   .add, .mul, .and, .or, .xor, .mod, .shl, .shr, .not, .hlt]

/-- The format of each instruction (30_encoding.md R62). -/
def Mnemonic.format : Mnemonic → Format
  | .hlt | .ret => .z
  | .prn | .push | .pop | .call | .jmp | .jeq | .jne | .not => .r
  | .cmp | .add | .mul | .and | .or | .xor | .mod | .shl | .shr => .rr
  | .ldi => .ri

/-- The number of operand bytes of a format (30_encoding.md R61). -/
def Format.nops : Format → Nat
  | .z => 0
  | .r => 1
  | .rr => 2
  | .ri => 2

/-- The ALU operation of each instruction, `none` for the ten that are not ALU instructions (30_encoding.md R73). -/
def Mnemonic.aluOp : Mnemonic → Option AluOp
  | .add => some .add
  | .mul => some .mul
  | .and => some .and
  | .or => some .or
  | .xor => some .xor
  | .not => some .not
  | .mod => some .mod
  | .shl => some .shl
  | .shr => some .shr
  | .cmp => some .cmp
  | .ldi | .prn | .push | .pop | .call | .ret | .jmp | .jeq | .jne | .hlt => none

/-- What `Decode(op)` yields for a legal opcode byte (30_encoding.md R73). -/
structure DecodeRecord where
  mnemonic : Mnemonic
  format : Format
  nops : Nat
  aluOp : Option AluOp
  deriving DecidableEq, Repr

/-- The record of a mnemonic (30_encoding.md R73). -/
def Mnemonic.record (m : Mnemonic) : DecodeRecord :=
  { mnemonic := m, format := m.format, nops := m.format.nops, aluOp := m.aluOp }

/-- `Decode(op)` under an opcode map: the row whose opcode equals the whole byte, or none (30_encoding.md R73). -/
def decodeOpWith (map : Mnemonic → Byte) (op : Byte) : Option DecodeRecord :=
  (Mnemonic.all.find? fun m => map m == op).map Mnemonic.record

/-- `Decode(op)` under the opcode map of 30_encoding.md R66. -/
def decodeOp (op : Byte) : Option DecodeRecord := decodeOpWith Config.opcodeMap op

/-- The instruction of a mnemonic with operand bytes `a` and `b`; bytes its format does not have are ignored
(30_encoding.md R61, R64). -/
def Mnemonic.build (a b : Byte) : Mnemonic → Instr
  | .ldi => .ldi a b
  | .prn => .prn a
  | .push => .push a
  | .pop => .pop a
  | .call => .call a
  | .ret => .ret
  | .cmp => .cmp a b
  | .jmp => .jmp a
  | .jeq => .jeq a
  | .jne => .jne a
  | .add => .add a b
  | .mul => .mul a b
  | .and => .and a b
  | .or => .or a b
  | .xor => .xor a b
  | .mod => .mod a b
  | .shl => .shl a b
  | .shr => .shr a b
  | .not => .not a
  | .hlt => .hlt

/-- What the decoder answers on a list of bytes. -/
inductive DecodeResult where
  /-- An instruction and the bytes after it. -/
  | instr (i : Instr) (rest : List Byte)
  /-- The first byte is none of the 20 opcodes (30_encoding.md R68). -/
  | invalidOpcode (op : Byte)
  /-- The list ends before the instruction does. In memory this cannot happen: addresses wrap (10_state.md R23). -/
  | truncated
  deriving DecidableEq, Repr

/-- Decode the instruction at the head of a list of bytes under an opcode map: the length follows from the opcode byte
alone, and operand bytes of an illegal opcode are not looked at (30_encoding.md R63, R64, R68). -/
def decodeWith (map : Mnemonic → Byte) : List Byte → DecodeResult
  | [] => .truncated
  | op :: bytes =>
    match decodeOpWith map op with
    | none => .invalidOpcode op
    | some d =>
      match d.nops, bytes with
      | 0, rest => .instr (d.mnemonic.build 0 0) rest
      | 1, a :: rest => .instr (d.mnemonic.build a 0) rest
      | 2, a :: b :: rest => .instr (d.mnemonic.build a b) rest
      | _, _ => .truncated

/-- The decoder (30_encoding.md R66). -/
def decode (bytes : List Byte) : DecodeResult := decodeWith Config.opcodeMap bytes

/-- The mnemonic of an instruction. -/
def Instr.mnemonic : Instr → Mnemonic
  | .ldi _ _ => .ldi
  | .prn _ => .prn
  | .push _ => .push
  | .pop _ => .pop
  | .call _ => .call
  | .ret => .ret
  | .cmp _ _ => .cmp
  | .jmp _ => .jmp
  | .jeq _ => .jeq
  | .jne _ => .jne
  | .add _ _ => .add
  | .mul _ _ => .mul
  | .and _ _ => .and
  | .or _ _ => .or
  | .xor _ _ => .xor
  | .mod _ _ => .mod
  | .shl _ _ => .shl
  | .shr _ _ => .shr
  | .not _ => .not
  | .hlt => .hlt

/-- The operand bytes of an instruction in memory order, `a` then `b` (30_encoding.md R61). -/
def Instr.operandBytes : Instr → List Byte
  | .ldi a imm => [a, imm]
  | .prn a => [a]
  | .push a => [a]
  | .pop a => [a]
  | .call a => [a]
  | .ret => []
  | .cmp a b => [a, b]
  | .jmp a => [a]
  | .jeq a => [a]
  | .jne a => [a]
  | .add a b => [a, b]
  | .mul a b => [a, b]
  | .and a b => [a, b]
  | .or a b => [a, b]
  | .xor a b => [a, b]
  | .mod a b => [a, b]
  | .shl a b => [a, b]
  | .shr a b => [a, b]
  | .not a => [a]
  | .hlt => []

/-- Encode under an opcode map: opcode first, operands at ascending addresses (30_encoding.md R60, 20_memory.md R42). -/
def encodeWith (map : Mnemonic → Byte) (i : Instr) : List Byte := map i.mnemonic :: i.operandBytes

/-- The bytes of an instruction in memory order (30_encoding.md R66). -/
def encode (i : Instr) : List Byte := encodeWith Config.opcodeMap i

/-- Byte `k` of an instruction whose bits are `w` in the numbering of spec/opcode_table.json, `nbits` of them given:
byte 0 is bits 7..0, byte 1 bits 15..8, byte 2 bits 23..16, and every bit from `nbits` up is 0. -/
def tableByte (nbits w k : Nat) : Byte := BitVec.ofNat 8 (w % 2 ^ nbits / 2 ^ (8 * k))

/-- The instruction the decoder reads from a word of spec/opcode_table.json laid out as memory holds it. -/
def decodeTableWord (nbits w : Nat) : Option Instr :=
  match decode [tableByte nbits w 0, tableByte nbits w 1, tableByte nbits w 2] with
  | .instr i _ => some i
  | .invalidOpcode _ => none
  | .truncated => none

end Sys2Proof
end

