-- ==== Sys2Proof/Machine/State.lean ====
section
/-!
DEFINITION. The machine's state, whole: exactly the tuple of spec/10_state.md R20, its reset value (R30,
70_reset_and_hazards.md R200), and the two closed types of reasons for which the model answers no next state.
-/

namespace Sys2Proof.Machine

/-- `FL`, the result of the most recent compare; `none` before the first one (10_state.md R24). -/
inductive Flag where
  | none | less | greater | equal
  deriving DecidableEq, Repr

/-- `RUN`, the dispatcher's state (10_state.md R25). -/
inductive RunState where
  | idle | running | halted | faulted
  deriving DecidableEq, Repr

/-- `FAULT_CAUSE`: no fault since reset, or which core fault (10_state.md R26, 60_exceptions.md R170). -/
inductive FaultCause where
  /-- No fault since reset. -/
  | none
  /-- Raised by the step at decode (60_exceptions.md R171). -/
  | invalidOpcode
  /-- Raised by the ALU block taken alone; unreachable in the core (60_exceptions.md R172). -/
  | invalidALUOperation
  /-- Raised by MOD (60_exceptions.md R173). -/
  | divisionByZero
  /-- Raised by any instruction with a register operand (60_exceptions.md R174). -/
  | invalidRegister
  deriving DecidableEq, Repr

/-- `MEM` as the list of its cells that differ from what an unlisted cell reads as, addresses rising
(10_state.md R27). -/
abbrev Memory := List Host.Cell

/-- The complete architectural state (10_state.md R20). -/
structure State where
  /-- `R[0]` .. `R[7]`; `R[7]` is the stack pointer (R21, R22). -/
  regs : Vector Byte 8
  /-- `PC` (R23). -/
  pc : Byte
  /-- `FL` (R24). -/
  fl : Flag
  /-- `RUN` (R25). -/
  run : RunState
  /-- `FAULT_CAUSE` (R26). -/
  faultCause : FaultCause
  /-- `FAULT_PC` (R26). -/
  faultPc : Byte
  /-- `FAULT_INFO` (R26). -/
  faultInfo : Byte
  /-- `MEM` (R27). -/
  mem : Memory
  /-- `OUT`, oldest first (R28). -/
  out : List Byte
  deriving DecidableEq, Repr

/-- The machine after the host's `reset`: everything zero, `FL = NONE`, `RUN = IDLE`, `OUT` empty
(10_state.md R30, 70_reset_and_hazards.md R200). `R[7]` is 0 here and becomes 0xF4 at `start` (90_conflicts.md C8). -/
def State.reset : State :=
  { regs := Vector.replicate 8 0
    pc := Config.pcReset
    fl := .none
    run := .idle
    faultCause := .none
    faultPc := 0
    faultInfo := 0
    mem := []
    out := [] }

/-- Reasons to end in `Host.Outcome.fault`. There are none: every fault of this machine has an entry that the spec
describes (60_exceptions.md R178), so it is a next state with `RUN = FAULTED`. Log entry 6. -/
inductive Fault where
  deriving DecidableEq, Repr

/-- Reasons to refuse. The core's step raises none of them. -/
inductive Refusal where
  /-- Raised by an arm of `exec` whose instruction has no meaning yet; no arm is left so. Safe. -/
  | notModelled (mnemonic : String)
  /-- Raised by the host's `load` of more than 256 bytes, no state changed (20_memory.md R55). Safe: the spec's own. -/
  | programTooLarge
  /-- Raised by the host's `load` and `start` outside `IDLE`, no state changed (20_memory.md R56,
  70_reset_and_hazards.md R204). Safe: the spec's own. -/
  | hostOpOutsideIdle
  deriving DecidableEq, Repr

/-- What an instruction, a step or a host operation answers. -/
abbrev Result := Host.Outcome State Fault Refusal

end Sys2Proof.Machine
end

