-- ==== Sys2Proof/Machine/Flags.lean ====
section
/-!
DEFINITION. The flags: what CMP computes (spec/44_compare_branch.md R130), the one predicate the control uses
(40_fetch_decode_execute.md R90), and the bit encodings of `FL`, `RUN` and `FAULT_CAUSE` (10_state.md R24, R25,
60_exceptions.md R170).
-/

namespace Sys2Proof.Machine

/-- The comparison of two unsigned bytes, exactly one of three results (44_compare_branch.md R130). -/
def compareFlag (x y : Byte) : Flag :=
  if x = y then .equal else if y.toNat < x.toNat then .greater else .less

/-- The predicate `FL = EQUAL`, bit `E`, all that JEQ and JNE see (40_fetch_decode_execute.md R90). -/
def Flag.isEqual (f : Flag) : Bool := f == .equal

/-- The three bits `L G E` of `FL`, at most one set (10_state.md R24). -/
def Flag.bits : Flag → BitVec 3
  | .none => 0b000
  | .equal => 0b001
  | .greater => 0b010
  | .less => 0b100

/-- The two bits of `RUN` (10_state.md R25). -/
def RunState.code : RunState → BitVec 2
  | .idle => 0
  | .running => 1
  | .halted => 2
  | .faulted => 3

/-- The cause codes (60_exceptions.md R170). -/
def FaultCause.code : FaultCause → BitVec 3
  | .none => 0
  | .invalidOpcode => 1
  | .invalidALUOperation => 2
  | .divisionByZero => 3
  | .invalidRegister => 4

end Sys2Proof.Machine
end

