-- ==== Sys2Proof/Machine/Ops.lean ====
section
/-!
DEFINITION. The named operations on memory, registers, stack pointer, program counter and output that every meaning
is written with, and fault entry as one shared operation. Rules: spec/20_memory.md, 10_state.md,
40_fetch_decode_execute.md R88, R91, R92, 60_exceptions.md R178.
-/

namespace Sys2Proof.Machine

/-- What a cell that memory does not list reads as: memory is zero-initialized (10_state.md R27, R30). -/
def Memory.unlisted : Byte := 0

/-- `MEM[addr]` (20_memory.md R45). -/
def Memory.read : Memory → Nat → Byte
  | [], _ => Memory.unlisted
  | cell :: rest, addr => if cell.1 = addr then cell.2 else Memory.read rest addr

/-- Take the entry of an address out of the list. -/
def Memory.erase (addr : Nat) : Memory → Memory
  | [] => []
  | cell :: rest => if cell.1 = addr then Memory.erase addr rest else cell :: Memory.erase addr rest

/-- Put an entry before the first one with a higher address. -/
def Memory.insert (addr : Nat) (v : Byte) : Memory → Memory
  | [] => [(addr, v)]
  | cell :: rest => if addr < cell.1 then (addr, v) :: cell :: rest else cell :: Memory.insert addr v rest

/-- `MEM[addr] <- v`, every other cell unchanged (20_memory.md R45), in canonical form. -/
def Memory.write (m : Memory) (addr : Nat) (v : Byte) : Memory :=
  if v = Memory.unlisted then Memory.erase addr m else Memory.insert addr v (Memory.erase addr m)

/-- The canonical form: addresses rise strictly and are cells of the machine, and no entry equals what an unlisted
cell reads as. -/
abbrev Memory.wf (m : Memory) : Prop :=
  m.Pairwise (fun c d => c.1 < d.1) ∧ ∀ c ∈ m, c.1 < Config.memSize ∧ c.2 ≠ Memory.unlisted

/-- `MemRead(addr, 1)` (20_memory.md R45). -/
def State.memRead (s : State) (addr : Byte) : Byte := Memory.read s.mem addr.toNat

/-- `MemWrite(addr, 1, v)` (20_memory.md R45). -/
def State.memWrite (s : State) (addr v : Byte) : State := { s with mem := Memory.write s.mem addr.toNat v }

/-- Read of `R[i]` (40_fetch_decode_execute.md R88). -/
def State.readReg (s : State) (i : RegIdx) : Byte := s.regs[i]

/-- `R[i] <- v`, all other registers unchanged (40_fetch_decode_execute.md R88). -/
def State.writeReg (s : State) (i : RegIdx) (v : Byte) : State := { s with regs := s.regs.set i v }

/-- `SP`, the alias of `R[7]` (00_scope.md R8, 10_state.md R22). -/
def State.sp (s : State) : Byte := s.readReg Config.spIndex

/-- `SpPush`: the stack pointer after a push, which is also the address written (40_fetch_decode_execute.md R91). -/
def spPush (sp : Byte) : Byte := sp - 1

/-- `SpPop`, second part: the stack pointer after a pop (40_fetch_decode_execute.md R91). -/
def spPop (sp : Byte) : Byte := sp + 1

/-- `R[7] <- (R[7] - 1) mod 256` (42_stack.md R110). -/
def State.decSp (s : State) : State := s.writeReg Config.spIndex (spPush s.sp)

/-- `R[7] <- (R[7] + 1) mod 256` on the value `R[7]` has at that moment (42_stack.md R111). -/
def State.incSp (s : State) : State := s.writeReg Config.spIndex (spPop s.sp)

/-- `MemWrite(R[7], 1, v)`: the store of a push, after the decrement (42_stack.md R110). -/
def State.storeTop (s : State) (v : Byte) : State := s.memWrite s.sp v

/-- `MemRead(R[7], 1)`: the load of a pop, before the increment (42_stack.md R111). -/
def State.loadTop (s : State) : Byte := s.memRead s.sp

/-- The address `n` bytes after the opcode, modulo 256 (10_state.md R23, 20_memory.md R41). -/
def State.pcPlus (s : State) (n : Nat) : Byte := s.pc + BitVec.ofNat 8 n

/-- `PC <- target` (00_scope.md R8). -/
def State.setPc (s : State) (target : Byte) : State := { s with pc := target }

/-- The sequential update `PC <- (pc0 + len) mod 256` of an instruction of `len` bytes, run while `PC` is still `pc0`
(10_state.md R23 (a)). -/
def State.advance (s : State) (len : Nat) : State := s.setPc (s.pcPlus len)

/-- `Emit(v)` (00_scope.md R8, 10_state.md R28). -/
def State.emit (s : State) (v : Byte) : State := { s with out := s.out ++ [v] }

/-- The state after fault entry: the record is written, `RUN <- FAULTED`, nothing else changes; `PC` is still `pc0`
(60_exceptions.md R178). There is no handler and no return from a fault (R179). -/
def State.enterFault (s : State) (cause : FaultCause) (info : Byte) : State :=
  { s with faultCause := cause, faultPc := s.pc, faultInfo := info, run := .faulted }

/-- `raise F(info)`: taking an exception, the one shared operation (60_exceptions.md R178). It is called on the state
in which the instruction was fetched, so nothing of the instruction has happened. -/
def raise (cause : FaultCause) (info : Byte) (s : State) : Result := .next (s.enterFault cause info)

end Sys2Proof.Machine
end

