-- ==== Sys2Proof/Machine/Operands.lean ====
section
/-!
DEFINITION. Operand forms: a register-index byte, checked (spec/30_encoding.md R65, R74), one or two of them, `a`
before `b` (40_fetch_decode_execute.md R82). The only other operand form is the immediate byte of LDI, used as it is
(30_encoding.md R64).
-/

namespace Sys2Proof.Machine

/-- The register an operand byte names, none when the byte is 8..255; its low three bits are never taken alone
(30_encoding.md R65). -/
def regIndex? (b : Byte) : Option RegIdx := if h : b.toNat < 8 then some ⟨b.toNat, h⟩ else none

/-- The operand byte that names a register (30_encoding.md R64). -/
def regByte (r : RegIdx) : Byte := BitVec.ofNat 8 r.val

/-- Check operand `a`, then go on with its register; InvalidRegister(a) otherwise (60_exceptions.md R174). -/
def withReg (a : Byte) (s : State) (body : RegIdx → Result) : Result :=
  match regIndex? a with
  | some r => body r
  | none => raise .invalidRegister a s

/-- Check operand `a`, then operand `b`, then go on with both (40_fetch_decode_execute.md R82). -/
def withRegs (a b : Byte) (s : State) (body : RegIdx → RegIdx → Result) : Result :=
  withReg a s fun ra => withReg b s fun rb => body ra rb

end Sys2Proof.Machine
end

