-- ==== Sys2Proof/Machine/Alu.lean ====
section
/-!
DEFINITION. The ALU in its two layers, `AluVal` on values and `Alu` on register indices (spec/45_alu.md R149,
40_fetch_decode_execute.md R89), and the nine instructions that write a register through it (R140 to R148).
-/

namespace Sys2Proof.Machine

/-- What `AluVal` returns (45_alu.md R149). -/
inductive AluResult where
  | value (v : Byte)
  | flags (f : Flag)
  | fault (c : FaultCause)
  deriving DecidableEq, Repr

/-- `x % y` for `y` not 0, DivisionByZero otherwise (45_alu.md R146). -/
def aluMod (x y : Byte) : AluResult := if y = 0 then .fault .divisionByZero else .value (x % y)

/-- `AluVal(op, x, y)`, the value-level ALU (45_alu.md R149). A selector that is none of the ten operations is
InvalidALUOperation (60_exceptions.md R172); the decoder selects none only for instructions that do not use the ALU. -/
def aluVal (op : Option AluOp) (x y : Byte) : AluResult :=
  match op with
  | some .add => .value (x + y)
  | some .mul => .value (x * y)
  | some .and => .value (x &&& y)
  | some .or => .value (x ||| y)
  | some .xor => .value (x ^^^ y)
  | some .not => .value (~~~y)
  | some .mod => aluMod x y
  | some .shl => .value (x <<< y.toNat)
  | some .shr => .value (x >>> y.toNat)
  | some .cmp => .flags (compareFlag x y)
  | none => .fault .invalidALUOperation

/-- `Alu(op, a, b)`, the register-level ALU (45_alu.md R149): both sources are read, then the destination or the
flags are written; on a fault nothing is written and the cause is answered. -/
def alu (op : Option AluOp) (ra rb : RegIdx) (s : State) : Except FaultCause State :=
  match aluVal op (s.readReg ra) (s.readReg rb) with
  | .value v => .ok (s.writeReg ra v)
  | .flags f => .ok { s with fl := f }
  | .fault c => .error c

/-- The shape of every ALU instruction: the ALU operation, then `PC <- pc0 + len`; a fault of the ALU is raised with
the opcode byte as its info (60_exceptions.md R170). -/
def aluStep (m : Mnemonic) (op : AluOp) (len : Nat) (ra rb : RegIdx) (s : State) : Result :=
  match alu (some op) ra rb s with
  | .ok s' => .next (s'.advance len)
  | .error c => raise c (Config.opcodeMap m) s

/-- ADD (R140). -/
def execAdd (a b : Byte) (s : State) : Result := withRegs a b s fun ra rb => aluStep .add .add 3 ra rb s

/-- MUL (R141). -/
def execMul (a b : Byte) (s : State) : Result := withRegs a b s fun ra rb => aluStep .mul .mul 3 ra rb s

/-- AND (R142). -/
def execAnd (a b : Byte) (s : State) : Result := withRegs a b s fun ra rb => aluStep .and .and 3 ra rb s

/-- OR (R143). -/
def execOr (a b : Byte) (s : State) : Result := withRegs a b s fun ra rb => aluStep .or .or 3 ra rb s

/-- XOR (R144). -/
def execXor (a b : Byte) (s : State) : Result := withRegs a b s fun ra rb => aluStep .xor .xor 3 ra rb s

/-- MOD (R146): DivisionByZero when `R[b] = 0`, whatever `R[a]` is. -/
def execMod (a b : Byte) (s : State) : Result := withRegs a b s fun ra rb => aluStep .mod .mod 3 ra rb s

/-- SHL (R147): the amount is the whole byte `R[b]`; the result is written back. -/
def execShl (a b : Byte) (s : State) : Result := withRegs a b s fun ra rb => aluStep .shl .shl 3 ra rb s

/-- SHR (R148): logical; the amount is the whole byte `R[b]`; the result is written back. -/
def execShr (a b : Byte) (s : State) : Result := withRegs a b s fun ra rb => aluStep .shr .shr 3 ra rb s

/-- NOT (R145): ALU NOT(a,a), one operand byte. -/
def execNot (a : Byte) (s : State) : Result := withReg a s fun r => aluStep .not .not 2 r r s

end Sys2Proof.Machine
end

