-- ==== Sys2Proof/Machine/Branch.lean ====
section
/-!
DEFINITION. CMP, JMP, JEQ and JNE (spec/44_compare_branch.md).
-/

namespace Sys2Proof.Machine

/-- CMP (R130): ALU CMP(a,b) writes `FL`, no register; `PC <- pc0 + 3`. -/
def execCmp (a b : Byte) (s : State) : Result := withRegs a b s fun ra rb => aluStep .cmp .cmp 3 ra rb s

/-- `PC <- R[a]` when taken, else `PC <- pc0 + 2`; the index is checked either way (R132). -/
def jumpIf (taken : Bool) (a : Byte) (s : State) : Result :=
  withReg a s fun r => .next (if taken then s.setPc (s.readReg r) else s.advance 2)

/-- JMP (R131). -/
def execJmp (a : Byte) (s : State) : Result := jumpIf true a s

/-- JEQ (R132): taken when `FL = EQUAL`. -/
def execJeq (a : Byte) (s : State) : Result := jumpIf s.fl.isEqual a s

/-- JNE (R133): taken when `FL` is not `EQUAL`, so also when it is `NONE`. -/
def execJne (a : Byte) (s : State) : Result := jumpIf (!s.fl.isEqual) a s

end Sys2Proof.Machine
end

