-- ==== Sys2Proof/Machine/Halt.lean ====
section
/-!
DEFINITION. HLT (spec/46_halt.md).
-/

namespace Sys2Proof.Machine

/-- HLT (R160): `RUN <- HALTED; PC <- pc0 + 1`. -/
def execHlt (s : State) : Result := .next ({ s with run := .halted }.advance 1)

end Sys2Proof.Machine
end

