-- ==== Sys2Proof/Machine/LoadPrint.lean ====
section
/-!
DEFINITION. LDI and PRN (spec/41_load_immediate_print.md).
-/

namespace Sys2Proof.Machine

/-- LDI (R100): `R[a] <- b; PC <- pc0 + 3`. -/
def execLdi (a imm : Byte) (s : State) : Result :=
  withReg a s fun r => .next ((s.writeReg r imm).advance 3)

/-- PRN (R101): `Emit(R[a]); PC <- pc0 + 2`. -/
def execPrn (a : Byte) (s : State) : Result :=
  withReg a s fun r => .next ((s.emit (s.readReg r)).advance 2)

end Sys2Proof.Machine
end

