-- ==== Sys2Proof/Machine/Stack.lean ====
section
/-!
DEFINITION. PUSH and POP (spec/42_stack.md), the statements of each in the order the rule writes them, which settles
the operand 7 (R113, 00_scope.md R9).
-/

namespace Sys2Proof.Machine

/-- PUSH (R110): decrement `SP`, then store `R[a]` as it is after the decrement at the new `SP`; `PC <- pc0 + 2`. -/
def execPush (a : Byte) (s : State) : Result :=
  withReg a s fun r => .next ((s.decSp.storeTop (s.decSp.readReg r)).advance 2)

/-- POP (R111): `R[a] <- MEM[SP]` at the old `SP`, then increment `R[7]` as it is then; `PC <- pc0 + 2`. -/
def execPop (a : Byte) (s : State) : Result :=
  withReg a s fun r => .next ((s.writeReg r s.loadTop).incSp.advance 2)

end Sys2Proof.Machine
end

