-- ==== Sys2Proof/Machine/Subroutine.lean ====
section
/-!
DEFINITION. CALL and RET (spec/43_subroutine.md), the statements of each in the order the rule writes them.
-/

namespace Sys2Proof.Machine

/-- CALL (R120): push the return address `(pc0 + 2) mod 256`, then `PC <- R[a]` as it is after the push (R122). -/
def execCall (a : Byte) (s : State) : Result :=
  withReg a s fun r => .next ((s.decSp.storeTop (s.pcPlus 2)).setPc (s.decSp.readReg r))

/-- RET (R121): `PC <- MEM[SP]`, then increment `SP`. -/
def execRet (s : State) : Result := .next (s.incSp.setPc s.loadTop)

end Sys2Proof.Machine
end

