-- ==== Sys2Proof/Machine/Fetch.lean ====
section
/-!
DEFINITION. Fetch and decode from memory at the program counter (spec/40_fetch_decode_execute.md R80, R81), what the
core does outside RUNNING, and how the bytes of an instruction are laid at the program counter for a test.
-/

namespace Sys2Proof.Machine

/-- The three bytes at `PC`, `PC + 1`, `PC + 2` modulo 256, opcode first: the longest instruction
(10_state.md R23, 20_memory.md R42). -/
def State.fetchWindow (s : State) : List Byte :=
  [s.memRead s.pc, s.memRead (s.pcPlus 1), s.memRead (s.pcPlus 2)]

/-- The instruction at `PC`, or none when its opcode byte is illegal (40_fetch_decode_execute.md R80). Operand bytes
that the format does not have are ignored; reading them is unobservable (20_memory.md R44). Exact: log entry 17. -/
def State.fetchDecode (s : State) : Option Instr :=
  match decodeOp (s.memRead s.pc) with
  | some d => some (d.mnemonic.build (s.memRead (s.pcPlus 1)) (s.memRead (s.pcPlus 2)))
  | none => none

/-- Outside RUNNING no step exists and no state changes (10_state.md R25, 40_fetch_decode_execute.md R80): the model
answers the same state. DEDUCED, safe: log entry 10. -/
def holdState (s : State) : Result := .next s

/-- Lay three bytes at `PC`, wrapping, the first at `PC` (20_memory.md R42). -/
def State.layBytes (s : State) (b0 b1 b2 : Byte) : State :=
  ((s.memWrite s.pc b0).memWrite (s.pcPlus 1) b1).memWrite (s.pcPlus 2) b2

/-- The host's `start` without its precondition (70_reset_and_hazards.md R203): `R[7] <- 0xF4; RUN <- RUNNING`. -/
def State.startRun (s : State) : State := { s.writeReg Config.spIndex Config.spInit with run := .running }

/-- What lets the very next step run: from `IDLE` it is `start`, the only way there into RUNNING (10_state.md R25);
elsewhere only `RUN` is set. DESIGN CHOICE: log entry 11. -/
def State.enableStep (s : State) : State :=
  match s.run with
  | .idle => s.startRun
  | .running => s
  | .halted => { s with run := .running }
  | .faulted => { s with run := .running }

end Sys2Proof.Machine
end

