-- ==== Sys2Proof/Machine/Step.lean ====
section
/-!
DEFINITION. One step: fetch, decode, execute (spec/40_fetch_decode_execute.md R80). Also how a test places an
instruction where the step fetches it.
-/

namespace Sys2Proof.Machine

/-- The step (40_fetch_decode_execute.md R80): only while RUNNING; an illegal opcode byte raises InvalidOpcode with
that byte; otherwise the instruction's own rule is its whole meaning (R83). -/
def step (s : State) : Host.Outcome State Fault Refusal :=
  if s.run = .running then
    match s.fetchDecode with
    | some i => exec i s
    | none => raise .invalidOpcode (s.memRead s.pc) s
  else holdState s

/-- `s` with the instruction whose bits are `w`, numbered as spec/opcode_table.json numbers them, at the program
counter, and a run that has started. It stands for the host's `load` and `start`: log entry 11. -/
def State.withFetchWord (s : State) (nbits w : Nat) : State :=
  (s.layBytes (tableByte nbits w 0) (tableByte nbits w 1) (tableByte nbits w 2)).enableStep

end Sys2Proof.Machine
end

