-- ==== Sys2Proof/Machine/Blocks.lean ====
section
/-!
DEFINITION. The second description of the step that the spec gives: the seven blocks of CORE as pure functions
(spec/40_fetch_decode_execute.md R85 to R92) and their composition in one step (R93). The instruction rules win where
the two differ; that they never differ is a statement about this file.
-/

namespace Sys2Proof.Machine

/-- What is written to `R[a]` (R87, column `rd_src`). -/
inductive RdSrc where
  | none | imm | alu | mem
  deriving DecidableEq, Repr

/-- The stack action (R87, column `stk`). -/
inductive StkAct where
  | none | push | pushRet | pop
  deriving DecidableEq, Repr

/-- The source of the next `PC` (R87, column `pc_sel`). -/
inductive PcSel where
  | seq | reg | pop | eq | ne
  deriving DecidableEq, Repr

/-- The control record of the instruction decoder (R87). -/
structure Control where
  nops : Nat
  chkA : Bool
  chkB : Bool
  aluOp : Option AluOp
  rdSrc : RdSrc
  stk : StkAct
  flWe : Bool
  pcSel : PcSel
  emit : Bool
  halt : Bool
  deriving DecidableEq, Repr

/-- The row of an ALU instruction with two register operands (R87). -/
def aluControl (op : AluOp) : Control := ⟨2, true, true, some op, .alu, .none, false, .seq, false, false⟩

/-- The table of control records (R87). -/
def controlOf : Mnemonic → Control
  | .ldi => ⟨2, true, false, none, .imm, .none, false, .seq, false, false⟩
  | .prn => ⟨1, true, false, none, .none, .none, false, .seq, true, false⟩
  | .push => ⟨1, true, false, none, .none, .push, false, .seq, false, false⟩
  | .pop => ⟨1, true, false, none, .mem, .pop, false, .seq, false, false⟩
  | .call => ⟨1, true, false, none, .none, .pushRet, false, .reg, false, false⟩
  | .ret => ⟨0, false, false, none, .none, .pop, false, .pop, false, false⟩
  | .cmp => ⟨2, true, true, some .cmp, .none, .none, true, .seq, false, false⟩
  | .jmp => ⟨1, true, false, none, .none, .none, false, .reg, false, false⟩
  | .jeq => ⟨1, true, false, none, .none, .none, false, .eq, false, false⟩
  | .jne => ⟨1, true, false, none, .none, .none, false, .ne, false, false⟩
  | .add => aluControl .add
  | .mul => aluControl .mul
  | .and => aluControl .and
  | .or => aluControl .or
  | .xor => aluControl .xor
  | .mod => aluControl .mod
  | .shl => aluControl .shl
  | .shr => aluControl .shr
  | .not => ⟨1, true, false, some .not, .alu, .none, false, .seq, false, false⟩
  | .hlt => ⟨0, false, false, none, .none, .none, false, .seq, false, true⟩

/-- Block `instruction_decoder` (R87): none stands for `invalid`. -/
def instructionDecoder (op : Byte) : Option Control := (decodeOp op).map fun d => controlOf d.mnemonic

/-- What `fetch_unit` presents (R86). -/
structure Fetched where
  op : Byte
  a : Byte
  b : Byte
  stepEnable : Bool
  deriving DecidableEq, Repr

/-- Block `fetch_unit`, its reads (R86): it reads both operand bytes always; those beyond `nops` are ignored. -/
def fetchUnit (pc : Byte) (run : RunState) (mem : Memory) : Fetched :=
  { op := Memory.read mem pc.toNat
    a := Memory.read mem (pc + 1).toNat
    b := Memory.read mem (pc + 2).toNat
    stepEnable := run == .running }

/-- Block `fetch_unit`, the run state of a step that does not fault (R86). -/
def runNext (halt : Bool) (run : RunState) : RunState := if halt then .halted else run

/-- Block `register_file`, read (R88). -/
def registerFileRead (regs : Vector Byte 8) (i : RegIdx) : Byte := regs[i]

/-- Block `register_file`, write (R88). -/
def registerFileWrite (regs : Vector Byte 8) (i : RegIdx) (v : Byte) : Vector Byte 8 := regs.set i v

/-- The index lines into `register_file`. The block never uses them with a byte above 7 (R88): such a byte has
already faulted, or the instruction has no register operand. DEDUCED, safe: log entry 18. -/
def indexLines (b : Byte) : RegIdx := ⟨b.toNat % 8, Nat.mod_lt _ (by decide)⟩

/-- Block `flags_register` (R90). -/
def flagsRegister (flWe : Bool) (r : AluResult) (fl : Flag) : Flag :=
  match flWe, r with
  | true, .flags f => f
  | _, _ => fl

/-- Block `stack_pointer_logic`, before the register write: `R[7]` is decremented by a push (R91). -/
def stackBefore (stk : StkAct) (regs : Vector Byte 8) : Vector Byte 8 :=
  match stk with
  | .push | .pushRet => registerFileWrite regs Config.spIndex (spPush (registerFileRead regs Config.spIndex))
  | .none | .pop => regs

/-- Block `stack_pointer_logic`, the memory write of a push, at the decremented `R[7]` (R91). -/
def stackStore (stk : StkAct) (ra : RegIdx) (ret : Byte) (regs : Vector Byte 8) (mem : Memory) : Memory :=
  match stk with
  | .push => Memory.write mem (registerFileRead regs Config.spIndex).toNat (registerFileRead regs ra)
  | .pushRet => Memory.write mem (registerFileRead regs Config.spIndex).toNat ret
  | .none | .pop => mem

/-- Block `stack_pointer_logic`, after the register write: `R[7]` as it is then is incremented by a pop (R91). -/
def stackAfter (stk : StkAct) (regs : Vector Byte 8) : Vector Byte 8 :=
  match stk with
  | .pop => registerFileWrite regs Config.spIndex (spPop (registerFileRead regs Config.spIndex))
  | .none | .push | .pushRet => regs

/-- The write of `R[a]` that the decoder selects (R87, column `rd_src`). -/
def destinationWrite (src : RdSrc) (ra : RegIdx) (imm popped : Byte) (r : AluResult) (regs : Vector Byte 8) :
    Vector Byte 8 :=
  match src, r with
  | .none, _ => regs
  | .imm, _ => registerFileWrite regs ra imm
  | .mem, _ => registerFileWrite regs ra popped
  | .alu, .value v => registerFileWrite regs ra v
  | .alu, _ => regs

/-- Block `program_counter`, the next value of a step that does not fault (R92). -/
def programCounter (sel : PcSel) (fl : Flag) (pc0 : Byte) (nops : Nat) (ra popped : Byte) : Byte :=
  let seq := pc0 + BitVec.ofNat 8 (1 + nops)
  match sel with
  | .seq => seq
  | .reg => ra
  | .pop => popped
  | .eq => if fl.isEqual then ra else seq
  | .ne => if fl.isEqual then seq else ra

/-- The fault signal of a decoded step, in the order of R82: index `a`, index `b`, the ALU. -/
def faultSignal (c : Control) (f : Fetched) (r : AluResult) : Option (FaultCause × Byte) :=
  if c.chkA && decide (7 < f.a.toNat) then some (.invalidRegister, f.a)
  else if c.chkB && decide (7 < f.b.toNat) then some (.invalidRegister, f.b)
  else match c.aluOp, r with
    | some _, .fault cause => some (cause, f.op)
    | _, _ => none

/-- The blocks together on a decoded step that does not fault, in the sequential order of 00_scope.md R9. -/
def blockEffect (c : Control) (f : Fetched) (r : AluResult) (s : State) : State :=
  let ra := indexLines f.a
  let popped := Memory.read s.mem (registerFileRead s.regs Config.spIndex).toNat
  let regs := stackBefore c.stk s.regs
  { s with
    regs := stackAfter c.stk (destinationWrite c.rdSrc ra f.b popped r regs)
    mem := stackStore c.stk ra (s.pc + 2) regs s.mem
    fl := flagsRegister c.flWe r s.fl
    pc := programCounter c.pcSel s.fl s.pc c.nops (registerFileRead regs ra) popped
    run := runNext c.halt s.run
    out := if c.emit then s.out ++ [registerFileRead regs ra] else s.out }

/-- The step composed of the seven blocks (R93). For NOT the ALU is given `b = a` (R87); with `step_enable = 0` nothing
changes (R86). -/
def blockStep (s : State) : Result :=
  let f := fetchUnit s.pc s.run s.mem
  if f.stepEnable then
    match instructionDecoder f.op with
    | none => raise .invalidOpcode f.op s
    | some c =>
      let b := if c.aluOp = some .not then f.a else f.b
      let r := aluVal c.aluOp (registerFileRead s.regs (indexLines f.a)) (registerFileRead s.regs (indexLines b))
      match faultSignal c f r with
      | some (cause, info) => raise cause info s
      | none => .next (blockEffect c f r s)
  else .next s

end Sys2Proof.Machine
end

