-- ==== Sys2Proof/Machine/HostOps.lean ====
section
/-!
DEFINITION. The host interface: `reset`, `load`, `start` and observation (spec/70_reset_and_hazards.md R200 to R204,
20_memory.md R54 to R57), and when a run has ended (40_fetch_decode_execute.md R94). None of these is a step of the
core; during RUNNING the host has no move but `reset` (70_reset_and_hazards.md R214: log entry 16).
-/

namespace Sys2Proof.Machine

/-- `reset`, allowed in any run state (70_reset_and_hazards.md R200). -/
def hostReset (_ : State) : Result := .next State.reset

/-- `MEM[base + i] <- image[i]` for each index, in order (20_memory.md R54). -/
def Memory.loadFrom (base : Byte) : List Byte → Memory → Memory
  | [], m => m
  | v :: rest, m => Memory.loadFrom (base + 1) rest (Memory.write m base.toNat v)

/-- `load(image)` (20_memory.md R54 to R56): refused outside IDLE, then refused when it is longer than memory; a refused
load changes nothing. DESIGN CHOICE which refusal is reported when both apply: log entry 12. -/
def hostLoad (image : List Byte) (s : State) : Result :=
  if s.run = .idle then
    if image.length ≤ Config.memSize then .next { s with mem := Memory.loadFrom Config.loadBase image s.mem }
    else .refused .programTooLarge
  else .refused .hostOpOutsideIdle

/-- `start` (70_reset_and_hazards.md R203, R204): refused outside IDLE. -/
def hostStart (s : State) : Result :=
  if s.run = .idle then .next s.startRun else .refused .hostOpOutsideIdle

/-- Observation: the host may read the whole state whenever `RUN` is not RUNNING, and reading changes nothing
(20_memory.md R57). -/
def hostObserve (s : State) : Option State := if s.run = .running then none else some s

/-- The moves of the host. -/
inductive HostOp where
  | reset
  | load (image : List Byte)
  | start
  deriving DecidableEq, Repr

/-- What a move of the host does. -/
def hostOp (op : HostOp) (s : State) : Result :=
  match op with
  | .reset => hostReset s
  | .load image => hostLoad image s
  | .start => hostStart s

/-- A run has ended exactly when `RUN` is HALTED or FAULTED (40_fetch_decode_execute.md R94). -/
def State.ended (s : State) : Bool := s.run == .halted || s.run == .faulted

/-- Only HALTED is a successful end (40_fetch_decode_execute.md R94). -/
def State.succeeded (s : State) : Bool := s.run == .halted

end Sys2Proof.Machine
end

