-- ==== Sys2Proof/Machine/Loader.lean ====
section
/-!
DEFINITION. The program text file, read by the loader outside CORE (spec/30_encoding.md R72, 60_exceptions.md R176,
00_scope.md R4).
-/

namespace Sys2Proof.Machine

/-- A bit character. -/
def bitOf? (c : Char) : Option Nat := if c = '0' then some 0 else if c = '1' then some 1 else none

/-- The value of a bit string, the first character the most significant bit (30_encoding.md R72): log entry 14. -/
def bitsValue? : List Char → Nat → Option Nat
  | [], acc => some acc
  | c :: rest, acc =>
    match bitOf? c with
    | some d => bitsValue? rest (2 * acc + d)
    | none => none

/-- A line that is blank or begins with `#` is skipped (30_encoding.md R72). -/
def lineSkipped (line : List Char) : Bool := line.head? == some '#' || line.all Char.isWhitespace

/-- The byte of a line that is not skipped: its first 8 characters; none when they are not a binary literal, or are
fewer than 8 (60_exceptions.md R176). -/
def lineByte? (line : List Char) : Option Byte :=
  if (line.take 8).length = 8 then (bitsValue? (line.take 8) 0).map (BitVec.ofNat 8) else none

/-- The image of a program text; none is the fatal parse error, after which no load takes place
(60_exceptions.md R176). -/
def parseProgram : List (List Char) → Option (List Byte)
  | [] => some []
  | line :: rest =>
    if lineSkipped line then parseProgram rest
    else match lineByte? line, parseProgram rest with
      | some v, some image => some (v :: image)
      | _, _ => none

end Sys2Proof.Machine
end

