-- ==== Sys2Proof/Machine/Sink.lean ====
section
/-!
DEFINITION. The output sink, outside CORE (spec/00_scope.md R4): each emitted byte in base 10 with no leading zeros
(41_load_immediate_print.md R101), successive values separated by the OPEN text of 92_eei_decisions.md D14.
-/

namespace Sys2Proof.Machine

/-- A byte in base 10, no leading zeros, no sign (41_load_immediate_print.md R101). -/
def decimalText (v : Byte) : List Char := Nat.toDigits 10 v.toNat

/-- The text of a sequence of emitted bytes; what stands between two values is open: log entry 13. -/
def sinkText (out : List Byte) : List Char := Config.outSeparator.intercalate (out.map decimalText)

end Sys2Proof.Machine
end

