-- ==== Sys2Proof/Safety.lean ====
section
/-!
DEFINITION. The terms in which statements about the machine are written: what stays unchanged between two states,
which registers an instruction may write (spec/40_fetch_decode_execute.md R84), when a step faults and with what record
(R82), and the invariant of the machine.
-/

namespace Sys2Proof

/-- The registers the instruction may write, with the implicit stack pointer (40_fetch_decode_execute.md R84, columns
"Writes reg" and "SP"), as operand bytes. -/
def Instr.writtenRegs : Instr → List Byte
  | .ldi a _ => [a]
  | .pop a => [a, 7]
  | .push _ | .call _ | .ret => [7]
  | .add a _ | .mul a _ | .and a _ | .or a _ | .xor a _ | .mod a _ | .shl a _ | .shr a _ => [a]
  | .not a => [a]
  | .prn _ | .cmp _ _ | .jmp _ | .jeq _ | .jne _ | .hlt => []

/-- The instructions that set `PC` directly (10_state.md R23 (b)); JEQ and JNE do so when taken. -/
def Instr.controlTransfer : Instr → Bool
  | .call _ | .ret | .jmp _ | .jeq _ | .jne _ => true
  | .ldi _ _ | .prn _ | .push _ | .pop _ | .cmp _ _ | .add _ _ | .mul _ _ | .and _ _ | .or _ _ | .xor _ _
  | .mod _ _ | .shl _ _ | .shr _ _ | .not _ | .hlt => false

/-- The first register-index byte above 7, `a` before `b` (40_fetch_decode_execute.md R82 (2), (3)). -/
def Instr.badRegister (i : Instr) : Option Byte := i.regOperands.find? fun b => decide (7 < b.toNat)

end Sys2Proof

namespace Sys2Proof.Machine

/-- Every register outside the list is unchanged. -/
def SameRegsBut (written : List RegIdx) (s t : State) : Prop := ∀ q, q ∉ written → t.readReg q = s.readReg q

/-- Every byte of memory is unchanged. -/
def SameMem (s t : State) : Prop := ∀ x, t.memRead x = s.memRead x

/-- Every byte of memory but the one at `addr` is unchanged. -/
def SameMemBut (addr : Byte) (s t : State) : Prop := ∀ x, x ≠ addr → t.memRead x = s.memRead x

/-- The fault record is unchanged. -/
def SameFaultRecord (s t : State) : Prop :=
  t.faultCause = s.faultCause ∧ t.faultPc = s.faultPc ∧ t.faultInfo = s.faultInfo

/-- `PC` is `n` further on, modulo 256 (10_state.md R23). -/
def PcAdvances (n : Nat) (s t : State) : Prop := t.pc.toNat = (s.pc.toNat + n) % 256

/-- An instruction of `len` bytes completes, leaves `v` in `R[r]`, advances `PC` past itself, and changes nothing else. -/
def WritesRegOnly (i : Instr) (len : Nat) (r : RegIdx) (v : Byte) (s : State) : Prop :=
  ∃ t, exec i s = .next t ∧ t.readReg r = v ∧ SameRegsBut [r] s t ∧ PcAdvances len s t ∧ SameMem s t ∧
    t.fl = s.fl ∧ t.run = s.run ∧ t.out = s.out ∧ SameFaultRecord s t

/-- An instruction completes with `PC = target` and changes nothing else. -/
def MovesPcOnly (i : Instr) (target : Byte) (s : State) : Prop :=
  ∃ t, exec i s = .next t ∧ t.pc = target ∧ SameRegsBut [] s t ∧ SameMem s t ∧ t.fl = s.fl ∧ t.run = s.run ∧
    t.out = s.out ∧ SameFaultRecord s t

/-- The fault is entered with this cause and info: the record is written, `RUN` is FAULTED, and everything else is as
it was, `PC` too (60_exceptions.md R178). -/
def FaultEntered (cause : FaultCause) (info : Byte) (s t : State) : Prop :=
  t.faultCause = cause ∧ t.faultPc = s.pc ∧ t.faultInfo = info ∧ t.run = .faulted ∧
    t.pc = s.pc ∧ SameRegsBut [] s t ∧ SameMem s t ∧ t.fl = s.fl ∧ t.out = s.out

/-- MOD with both indices legal and `R[b] = 0` (45_alu.md R146). -/
def DividesByZero (i : Instr) (s : State) : Prop :=
  ∃ ra rb : RegIdx, i = .mod (regByte ra) (regByte rb) ∧ s.readReg rb = 0

/-- The fault that executing an instruction raises, if any, in the order of checks of 40_fetch_decode_execute.md R82,
after the opcode check. -/
def FaultOf (i : Instr) (s : State) (cause : FaultCause) (info : Byte) : Prop :=
  (i.badRegister = some info ∧ cause = .invalidRegister) ∨
    (i.badRegister = none ∧ DividesByZero i s ∧ cause = .divisionByZero ∧ info = 0xA4)

/-- The fault that a step raises, if any: the opcode first (40_fetch_decode_execute.md R82). -/
def StepFaultOf (s : State) (cause : FaultCause) (info : Byte) : Prop :=
  (s.fetchDecode = none ∧ cause = .invalidOpcode ∧ info = s.memRead s.pc) ∨
    ∃ i, s.fetchDecode = some i ∧ FaultOf i s cause info

/-- The two states agree on everything a program can act on: all but `OUT` and the fault record
(10_state.md R26, R28). -/
def SameProgramView (s t : State) : Prop :=
  t.regs = s.regs ∧ t.pc = s.pc ∧ t.fl = s.fl ∧ t.run = s.run ∧ t.mem = s.mem

/-- The invariant of the machine. -/
structure Inv (s : State) : Prop where
  /-- Memory is in canonical form. -/
  memory : Memory.wf s.mem
  /-- In IDLE everything but memory is as after reset (10_state.md R30). -/
  idle : s.run = .idle → s = { State.reset with mem := s.mem }
  /-- Unless FAULTED, the fault record is empty (10_state.md R26). -/
  noFault : s.run ≠ .faulted → s.faultCause = .none ∧ s.faultPc = 0 ∧ s.faultInfo = 0
  /-- When FAULTED, the record is that of the instruction `PC` still points at: its address, and the first fault that
  this instruction has in this state (60_exceptions.md R170, R178). -/
  fault : s.run = .faulted → s.faultPc = s.pc ∧ StepFaultOf s s.faultCause s.faultInfo

end Sys2Proof.Machine
end

