-- ==== Sys2Proof/Certificates/Slice0/Obligations.lean ====
section
/-!
DEFINITION. The statements about the model. Each docstring names the rule of spec/ it rests on. D<n> is a decision of
spec/92_eei_decisions.md, made where the source is silent; a statement that rests on one is marked 'derived'.
-/

open Sys2Proof Sys2Proof.Machine

/-! ### Encoding -/

/-- Words written out from 30_encoding.md R66 and 95_test_vectors.md S1, T1 decode to what they stand for. The bytes
other than 82, 47 and 01 are decision D1, log entry 1. -/
def Obligations.SpecWordsDecode : Prop :=
  decode [0x82, 0x00, 0x08, 0x47, 0x00, 0x01] = .instr (.ldi 0 8) [0x47, 0x00, 0x01] ∧
    decode [0x47, 0x00, 0x01] = .instr (.prn 0) [0x01] ∧ decode [0x01] = .instr .hlt [] ∧
    decode [0x45, 0x01] = .instr (.push 1) [] ∧ decode [0x50, 0x02] = .instr (.call 2) [] ∧
    decode [0x11, 0x33] = .instr .ret [0x33] ∧ decode [0xA7, 0x00, 0x02] = .instr (.cmp 0 2) [] ∧
    decode [0x56, 0x03] = .instr (.jne 3) [] ∧ decode [0xA4, 0x02, 0x00] = .instr (.mod 2 0) [] ∧
    decode [0x69, 0x03] = .instr (.not 3) []

/-- The opcode table, row by row with the format and the ALU operation of each instruction, and the number of illegal
bytes: 30_encoding.md R62, R66, R68, R73 (`none` for the ten instructions that are not the ALU's). The bytes of 17 rows
are decision D1, log entry 1. -/
def Obligations.OpcodeTableRows : Prop :=
  Mnemonic.all.map (fun m => (m, Config.opcodeMap m, m.format, m.aluOp)) =
      [(.ldi, 0x82, .ri, none), (.prn, 0x47, .r, none), (.push, 0x45, .r, none), (.pop, 0x46, .r, none),
       (.call, 0x50, .r, none), (.ret, 0x11, .z, none), (.cmp, 0xA7, .rr, some .cmp), (.jmp, 0x54, .r, none),
       (.jeq, 0x55, .r, none), (.jne, 0x56, .r, none), (.add, 0xA0, .rr, some .add), (.mul, 0xA2, .rr, some .mul),
       (.and, 0xA8, .rr, some .and), (.or, 0xAA, .rr, some .or), (.xor, 0xAB, .rr, some .xor),
       (.mod, 0xA4, .rr, some .mod), (.shl, 0xAC, .rr, some .shl), (.shr, 0xAD, .rr, some .shr),
       (.not, 0x69, .r, some .not), (.hlt, 0x01, .z, none)] ∧
    ((List.range 256).countP fun n => (decodeOp (BitVec.ofNat 8 n)).isNone) = 236

/-- `Decode(op)` is the lookup of the whole byte, under every injective opcode map: 30_encoding.md R73, D1, D2. -/
def Obligations.DecodeMatchesWholeByte : Prop :=
  ∀ map : Mnemonic → Byte, Function.Injective map → ∀ (op : Byte) (d : DecodeRecord),
    decodeOpWith map op = some d ↔
      map d.mnemonic = op ∧ d.format = d.mnemonic.format ∧ d.nops = d.format.nops ∧ d.aluOp = d.mnemonic.aluOp

/-- Under every injective opcode map, decoding the encoding of any instruction, with every operand byte, gives it back
and leaves the bytes after it: 30_encoding.md R60 to R66, D1. -/
def Obligations.DecodeOfEncode : Prop :=
  Function.Injective Config.opcodeMap ∧
    ∀ map : Mnemonic → Byte, Function.Injective map → ∀ (i : Instr) (rest : List Byte),
      decodeWith map (encodeWith map i ++ rest) = .instr i rest

/-- What is decoded is the encoding of the instruction, so no two byte strings of one length mean the same
instruction: 30_encoding.md R60, R61, R64. -/
def Obligations.EncodeOfDecode : Prop :=
  ∀ (map : Mnemonic → Byte) (bytes : List Byte) (i : Instr) (rest : List Byte),
    decodeWith map bytes = .instr i rest → bytes = encodeWith map i ++ rest

/-- What the decoder rejects, and by which name: an opcode byte outside the table, or a list that ends too early:
30_encoding.md R63, R68. -/
def Obligations.DecoderRejections : Prop :=
  ∀ bytes : List Byte,
    (∀ op, decode bytes = .invalidOpcode op ↔ bytes.head? = some op ∧ ∀ m, Config.opcodeMap m ≠ op) ∧
      (decode bytes = .truncated ↔
        bytes = [] ∨ ∃ m rest, bytes = Config.opcodeMap m :: rest ∧ rest.length < m.format.nops)

/-- The length follows from the opcode byte alone and the operand bytes are used whole: 30_encoding.md R60, R63, R64. -/
def Obligations.LengthFollowsOpcode : Prop :=
  ∀ (m : Mnemonic) (rest : List Byte), m.format.nops ≤ rest.length →
    ∃ i, i.mnemonic = m ∧ i.operandBytes = rest.take m.format.nops ∧
      decode (Config.opcodeMap m :: rest) = .instr i (rest.drop m.format.nops)

/-- Which operand bytes are register indices, by format: 30_encoding.md R74. -/
def Obligations.RegisterOperandsByFormat : Prop :=
  ∀ i : Instr, (i.mnemonic.format = .r → ∃ a, i.operandBytes = [a] ∧ i.regOperands = [a]) ∧
    (i.mnemonic.format = .rr → ∃ a b, i.operandBytes = [a, b] ∧ i.regOperands = [a, b]) ∧
    (i.mnemonic.format = .ri → ∃ a b, i.operandBytes = [a, b] ∧ i.regOperands = [a]) ∧
    (i.mnemonic.format = .z → i.operandBytes = [] ∧ i.regOperands = [])

/-! ### The step -/

/-- While RUNNING, when the bytes at `PC`, `PC + 1`, `PC + 2` decode to an instruction, the step is that instruction's
own rule and nothing around it: 40_fetch_decode_execute.md R80, R81, R83. -/
def Obligations.StepRunsDecoded : Prop :=
  ∀ (s : State) (i : Instr) (rest : List Byte),
    s.run = .running → decode [s.memRead s.pc, s.memRead (s.pc + 1), s.memRead (s.pc + 2)] = .instr i rest →
      step s = exec i s

/-- InvalidOpcode: 60_exceptions.md R171, with cause code 1, for each of the 236 bytes outside the table, 0x00 and 0xFF
among them. -/
def Obligations.IllegalOpcodeFaults : Prop :=
  (∀ s : State, s.run = .running → decodeOp (s.memRead s.pc) = none →
    ∃ t, step s = .next t ∧ FaultEntered .invalidOpcode (s.memRead s.pc) s t) ∧
  (∀ op, decodeOp op = none ↔ ∀ m, Config.opcodeMap m ≠ op) ∧
  ((List.range 256).countP fun n => (decodeOp (BitVec.ofNat 8 n)).isNone) = 236 ∧
  decodeOp 0x00 = none ∧ decodeOp 0xFF = none ∧ FaultCause.invalidOpcode.code = 1

/-- Outside RUNNING no state changes: 10_state.md R25, 40_fetch_decode_execute.md R80. That the model then answers the
same state as its next state is log entry 10. -/
def Obligations.NoStepOutsideRunning : Prop :=
  ∀ s : State, s.run ≠ .running → step s = .next s

/-- Every state has a next state. While RUNNING the step is total and never stalls: 70_reset_and_hazards.md R216. Outside
RUNNING the spec has no step (10_state.md R25, 40_fetch_decode_execute.md R80), and that the model answers the same
state there is its own choice, log entry 10 (DEDUCED). -/
def Obligations.StepIsTotal : Prop :=
  ∀ s : State, ∃ t, step s = .next t

/-- The transitions of `RUN` by a step, and no others: 10_state.md R25 (D7). -/
def Obligations.RunStateTransitions : Prop :=
  ∀ s t : State, step s = .next t →
    (s.run ≠ .running → t.run = s.run) ∧
      (s.run = .running → t.run ≠ .idle ∧ (t.run = .halted ↔ s.fetchDecode = some .hlt) ∧
        (t.run = .faulted ↔ ∃ cause info, StepFaultOf s cause info))

/-- The order of checks decides one fault, and that fault is entered: 40_fetch_decode_execute.md R82,
60_exceptions.md R170, R177 (D8, D11). -/
def Obligations.FaultPriorityDecides : Prop :=
  ∀ (s : State) (cause : FaultCause) (info : Byte), s.run = .running → StepFaultOf s cause info →
    (∃ t, step s = .next t ∧ FaultEntered cause info s t) ∧
      ∀ cause' info', StepFaultOf s cause' info' → cause' = cause ∧ info' = info

/-- Faults are precise: a step that faults changes only the record and `RUN`, and records the address of the faulting
opcode: 60_exceptions.md R178 (D9). -/
def Obligations.FaultsArePrecise : Prop :=
  ∀ s t : State, s.run = .running → step s = .next t → t.run = .faulted →
    FaultEntered t.faultCause t.faultInfo s t

/-- A byte stored by PUSH over the next opcode is what the next fetch decodes: 20_memory.md R52,
70_reset_and_hazards.md R213. -/
def Obligations.StoredByteIsFetchedNext : Prop :=
  ∀ (s : State) (r : RegIdx), r ≠ 7 → spPush s.sp = s.pcPlus 2 →
    ∃ t, exec (.push (regByte r)) s = .next t ∧ t.memRead t.pc = s.readReg r ∧
      t.fetchDecode = (decodeOp (s.readReg r)).map fun d =>
        d.mnemonic.build (s.memRead (s.pcPlus 3)) (s.memRead (s.pcPlus 4))

/-- Fetching a zero byte, as when a program runs past its end, faults with InvalidOpcode(0x00): 30_encoding.md R68,
70_reset_and_hazards.md R206. -/
def Obligations.ZeroByteFaults : Prop :=
  ∀ s : State, s.run = .running → s.memRead s.pc = 0 → ∃ t, step s = .next t ∧ FaultEntered .invalidOpcode 0 s t

/-! ### The instructions: result and frame -/

/-- LDI, whole: 41_load_immediate_print.md R100, with the operands of an LDI at 0xFE or 0xFF taken from the other end of
memory, which the last clause says for every `PC`. -/
def Obligations.LdiLoadsImmediate : Prop :=
  ∀ (s : State) (imm : Byte),
    (∀ r, WritesRegOnly (.ldi (regByte r) imm) 3 r imm s) ∧
      (∀ a : Byte, 7 < a.toNat → ∃ t, exec (.ldi a imm) s = .next t ∧ FaultEntered .invalidRegister a s t) ∧
      (∀ a : Byte, encode (.ldi a imm) = [0x82, a, imm]) ∧
      (s.run = .running → s.memRead s.pc = 0x82 →
        step s = exec (.ldi (s.memRead (s.pc + 1)) (s.memRead (s.pc + 2))) s)

/-- PRN emits `R[a]` once and changes nothing else: 41_load_immediate_print.md R101, 10_state.md R28 (D14). -/
def Obligations.PrnEmitsRegister : Prop :=
  ∀ (s : State) (r : RegIdx), ∃ t, exec (.prn (regByte r)) s = .next t ∧ t.out = s.out ++ [s.readReg r] ∧
    PcAdvances 2 s t ∧ SameRegsBut [] s t ∧ SameMem s t ∧ t.fl = s.fl ∧ t.run = s.run ∧ SameFaultRecord s t

/-- PUSH: `SP` is decremented modulo 256, the byte stored at the new `SP` is `R[a]` read after the decrement (for
register 7 the new `SP` itself), nothing else changes: 42_stack.md R110, R113 (D4, D12). -/
def Obligations.PushStoresBelow : Prop :=
  ∀ (s : State) (r : RegIdx), ∃ t, exec (.push (regByte r)) s = .next t ∧
    t.sp = spPush s.sp ∧ (spPush s.sp).toNat = (s.sp.toNat + 255) % 256 ∧
    t.memRead (spPush s.sp) = (if r = 7 then spPush s.sp else s.readReg r) ∧ SameMemBut (spPush s.sp) s t ∧
    SameRegsBut [7] s t ∧ PcAdvances 2 s t ∧ t.fl = s.fl ∧ t.run = s.run ∧ t.out = s.out ∧ SameFaultRecord s t

/-- POP: `R[a]` gets the byte at the old `SP`, then `R[7]` as it is then is incremented modulo 256; memory is unchanged:
42_stack.md R111, R113 (D4, D12). -/
def Obligations.PopLoadsTop : Prop :=
  ∀ (s : State) (r : RegIdx), ∃ t, exec (.pop (regByte r)) s = .next t ∧
    (r ≠ 7 → t.readReg r = s.memRead s.sp ∧ t.sp.toNat = (s.sp.toNat + 1) % 256) ∧
    (r = 7 → t.sp.toNat = ((s.memRead s.sp).toNat + 1) % 256) ∧ SameRegsBut [r, 7] s t ∧ SameMem s t ∧
    PcAdvances 2 s t ∧ t.fl = s.fl ∧ t.run = s.run ∧ t.out = s.out ∧ SameFaultRecord s t

/-- CALL: pushes `(pc0 + 2) mod 256`, then jumps to `R[a]` read after the decrement (for register 7 the new `SP`):
43_subroutine.md R120, R122 (D3, D4, D12, D21). -/
def Obligations.CallPushesReturn : Prop :=
  ∀ (s : State) (r : RegIdx), ∃ t, exec (.call (regByte r)) s = .next t ∧
    t.sp = spPush s.sp ∧ (spPush s.sp).toNat = (s.sp.toNat + 255) % 256 ∧
    (t.memRead (spPush s.sp)).toNat = (s.pc.toNat + 2) % 256 ∧ SameMemBut (spPush s.sp) s t ∧
    t.pc = (if r = 7 then spPush s.sp else s.readReg r) ∧ SameRegsBut [7] s t ∧
    t.fl = s.fl ∧ t.run = s.run ∧ t.out = s.out ∧ SameFaultRecord s t

/-- RET: `PC` gets the byte at the old `SP`, unvalidated, and `SP` is incremented modulo 256: 43_subroutine.md R121
(D4, D21). -/
def Obligations.RetPopsPc : Prop :=
  ∀ s : State, ∃ t, exec .ret s = .next t ∧ t.pc = s.memRead s.sp ∧ t.sp.toNat = (s.sp.toNat + 1) % 256 ∧
    SameRegsBut [7] s t ∧ SameMem s t ∧ t.fl = s.fl ∧ t.run = s.run ∧ t.out = s.out ∧ SameFaultRecord s t

/-- CMP writes exactly one of three values, by the unsigned comparison of `R[a]` with `R[b]`, and no register:
44_compare_branch.md R130. -/
def Obligations.CmpWritesFlags : Prop :=
  ∀ (s : State) (ra rb : RegIdx), ∃ t, exec (.cmp (regByte ra) (regByte rb)) s = .next t ∧
    (t.fl = .equal ↔ (s.readReg ra).toNat = (s.readReg rb).toNat) ∧
    (t.fl = .greater ↔ (s.readReg ra).toNat > (s.readReg rb).toNat) ∧
    (t.fl = .less ↔ (s.readReg ra).toNat < (s.readReg rb).toNat) ∧ t.fl ≠ .none ∧
    SameRegsBut [] s t ∧ PcAdvances 3 s t ∧ SameMem s t ∧ t.run = s.run ∧ t.out = s.out ∧ SameFaultRecord s t

/-- JMP, JEQ and JNE set `PC` to `R[a]` when taken, else step over their two bytes, and change nothing else; with
`FL = NONE` JEQ is not taken and JNE is: 44_compare_branch.md R131 to R133 (D3, D5, D21). -/
def Obligations.JumpsMovePcOnly : Prop :=
  ∀ (s : State) (r : RegIdx),
    (s.pcPlus 2).toNat = (s.pc.toNat + 2) % 256 ∧ MovesPcOnly (.jmp (regByte r)) (s.readReg r) s ∧
      MovesPcOnly (.jeq (regByte r)) (if s.fl = .equal then s.readReg r else s.pcPlus 2) s ∧
      MovesPcOnly (.jne (regByte r)) (if s.fl = .equal then s.pcPlus 2 else s.readReg r) s

/-- JEQ and JNE are exact complements: 44_compare_branch.md R134. -/
def Obligations.JeqJneComplement : Prop :=
  ∀ (s : State) (r : RegIdx), ∃ t u, exec (.jeq (regByte r)) s = .next t ∧ exec (.jne (regByte r)) s = .next u ∧
    ((t.pc = s.readReg r ∧ u.pc = s.pcPlus 2) ∨ (t.pc = s.pcPlus 2 ∧ u.pc = s.readReg r))

/-- ADD and MUL write the sum and the product modulo 256 to `R[a]` and change nothing else, `FL` included; `a = b` and
register 7 included: 45_alu.md R140, R141, R150, R152. -/
def Obligations.ArithmeticWritesModulo256 : Prop :=
  ∀ (s : State) (ra rb : RegIdx), ∃ sum product : Byte,
    WritesRegOnly (.add (regByte ra) (regByte rb)) 3 ra sum s ∧
      sum.toNat = ((s.readReg ra).toNat + (s.readReg rb).toNat) % 256 ∧
      WritesRegOnly (.mul (regByte ra) (regByte rb)) 3 ra product s ∧
      product.toNat = ((s.readReg ra).toNat * (s.readReg rb).toNat) % 256

/-- AND, OR, XOR work bit by bit and NOT gives `255 - R[a]`; each writes `R[a]` and changes nothing else: 45_alu.md R142
to R145, R150, R152. -/
def Obligations.BitwiseWritesBits : Prop :=
  ∀ (s : State) (ra rb : RegIdx), ∃ conj disj excl compl : Byte,
    (WritesRegOnly (.and (regByte ra) (regByte rb)) 3 ra conj s ∧
      ∀ k, conj.getLsbD k = ((s.readReg ra).getLsbD k && (s.readReg rb).getLsbD k)) ∧
    (WritesRegOnly (.or (regByte ra) (regByte rb)) 3 ra disj s ∧
      ∀ k, disj.getLsbD k = ((s.readReg ra).getLsbD k || (s.readReg rb).getLsbD k)) ∧
    (WritesRegOnly (.xor (regByte ra) (regByte rb)) 3 ra excl s ∧
      ∀ k, excl.getLsbD k = ((s.readReg ra).getLsbD k != (s.readReg rb).getLsbD k)) ∧
    (WritesRegOnly (.not (regByte ra)) 2 ra compl s ∧ compl.toNat = 255 - (s.readReg ra).toNat)

/-- SHL and SHR shift by the whole byte `R[b]` on integers and write the result back; amounts of 8 and more give 0:
45_alu.md R147, R148, R151, R152 (D13). -/
def Obligations.ShiftsByWholeByte : Prop :=
  ∀ (s : State) (ra rb : RegIdx), ∃ left right : Byte,
    WritesRegOnly (.shl (regByte ra) (regByte rb)) 3 ra left s ∧
      left.toNat = ((s.readReg ra).toNat * 2 ^ (s.readReg rb).toNat) % 256 ∧
      WritesRegOnly (.shr (regByte ra) (regByte rb)) 3 ra right s ∧
      right.toNat = (s.readReg ra).toNat / 2 ^ (s.readReg rb).toNat ∧
      (8 ≤ (s.readReg rb).toNat → left = 0 ∧ right = 0)

/-- MOD by a register that does not hold 0 writes the unsigned remainder and changes nothing else: 45_alu.md R146,
R152. -/
def Obligations.ModWritesRemainder : Prop :=
  ∀ (s : State) (ra rb : RegIdx), s.readReg rb ≠ 0 → ∃ v : Byte,
    WritesRegOnly (.mod (regByte ra) (regByte rb)) 3 ra v s ∧
      v.toNat = (s.readReg ra).toNat % (s.readReg rb).toNat

/-- DivisionByZero, whole: 60_exceptions.md R173. MOD with `R[b] = 0` enters the fault with cause 3 and the MOD opcode
byte, nothing else changes, and no other instruction raises it. -/
def Obligations.ModByZeroFaults : Prop :=
  (∀ (s : State) (ra rb : RegIdx), s.readReg rb = 0 →
    ∃ t, exec (.mod (regByte ra) (regByte rb)) s = .next t ∧ FaultEntered .divisionByZero 0xA4 s t) ∧
  (∀ (i : Instr) (s t : State), exec i s = .next t → s.faultCause ≠ .divisionByZero →
    t.faultCause = .divisionByZero → DividesByZero i s) ∧
  Config.opcodeMap .mod = 0xA4 ∧ FaultCause.divisionByZero.code = 3

/-- HLT ends the run with `PC` past it and changes nothing else: 46_halt.md R160 (D3, D7). -/
def Obligations.HltHalts : Prop :=
  ∀ s : State, ∃ t, exec .hlt s = .next t ∧ t.run = .halted ∧ PcAdvances 1 s t ∧ SameRegsBut [] s t ∧ SameMem s t ∧
    t.fl = s.fl ∧ t.out = s.out ∧ SameFaultRecord s t

/-! ### Rules over all instructions -/

/-- A register-index byte above 7 raises InvalidRegister with the first such byte, before any effect, in every
instruction and in every state: 30_encoding.md R65, 60_exceptions.md R174 (D8, D11). -/
def Obligations.BadRegisterFaults : Prop :=
  ∀ (i : Instr) (s : State) (b : Byte), i.badRegister = some b →
    7 < b.toNat ∧ ∃ t, exec i s = .next t ∧ FaultEntered .invalidRegister b s t

/-- Every well-formed instruction that does not divide by zero completes without a fault; only HLT changes `RUN`:
40_fetch_decode_execute.md R80, R82, R83, 10_state.md R25. -/
def Obligations.WellFormedCompletes : Prop :=
  ∀ (i : Instr) (s : State), i.wellFormed = true → ¬ DividesByZero i s →
    ∃ t, exec i s = .next t ∧ SameFaultRecord s t ∧ t.run = (if i = .hlt then .halted else s.run)

/-- No instruction but CMP writes `FL`: 10_state.md R24. -/
def Obligations.FlagsWrittenOnlyByCmp : Prop :=
  ∀ (i : Instr) (s t : State), exec i s = .next t → (∀ a b, i ≠ .cmp a b) → t.fl = s.fl

/-- No instruction but JEQ and JNE depends on `FL`. With another `FL` before it, a CMP of two legal indices answers the
same state, `FL` included; every other instruction answers the same state but for `FL`, which it leaves at what it was:
10_state.md R24. -/
def Obligations.FlagsReadOnlyByJeqJne : Prop :=
  ∀ (i : Instr) (s t : State) (f : Flag), exec i s = .next t → (∀ a, i ≠ .jeq a ∧ i ≠ .jne a) →
    ((∃ ra rb, i = .cmp (regByte ra) (regByte rb)) → exec i { s with fl := f } = .next t) ∧
      ((∀ ra rb, i ≠ .cmp (regByte ra) (regByte rb)) → exec i { s with fl := f } = .next { t with fl := f })

/-- During a run only PUSH and CALL write memory, one byte, at the decremented stack pointer: 10_state.md R27,
20_memory.md R40, R44. -/
def Obligations.MemoryWrittenOnlyByPushCall : Prop :=
  ∀ (i : Instr) (s t : State), exec i s = .next t →
    t.mem = s.mem ∨ ((∃ r, i = .push (regByte r) ∨ i = .call (regByte r)) ∧ SameMemBut (spPush s.sp) s t)

/-- `OUT` is append-only, and only PRN appends to it: 10_state.md R28 (D14). -/
def Obligations.OutputOnlyByPrn : Prop :=
  ∀ (i : Instr) (s t : State), exec i s = .next t →
    (t.out = s.out ∧ ∀ r, i ≠ .prn (regByte r)) ∨ ∃ r, i = .prn (regByte r) ∧ t.out = s.out ++ [s.readReg r]

/-- No instruction writes a register outside the table of 40_fetch_decode_execute.md R84, fault or no fault. -/
def Obligations.RegistersWrittenAsTabulated : Prop :=
  ∀ (i : Instr) (s t : State) (q : RegIdx), exec i s = .next t → regByte q ∉ i.writtenRegs →
    t.readReg q = s.readReg q

/-- An instruction that is no control transfer and does not fault advances `PC` by its length, HLT included:
10_state.md R23 (a), 40_fetch_decode_execute.md R92 (D3). -/
def Obligations.SequentialPcAdvance : Prop :=
  ∀ (i : Instr) (s t : State), exec i s = .next t → i.controlTransfer = false → i.wellFormed = true →
    ¬ DividesByZero i s → PcAdvances (encode i).length s t

/-- No instruction reads `OUT` or the fault record: two states that differ only there step to two states that differ
only there, and emit the same: 10_state.md R26, R28. Outside RUNNING the spec has no step (10_state.md R25,
40_fetch_decode_execute.md R80), and that both then answer a next state is the model's choice, log entry 10 (DEDUCED). -/
def Obligations.OutAndFaultRecordUnread : Prop :=
  ∀ s s' : State, SameProgramView s s' → ∃ t t' emitted, step s = .next t ∧ step s' = .next t' ∧
    SameProgramView t t' ∧ t.out = s.out ++ emitted ∧ t'.out = s'.out ++ emitted

/-! ### Sequences -/

/-- PUSH a followed by POP b, both in memory at `PC`, for registers other than 7 and a store that misses the POP's two
bytes: `R[b]` gets `R[a]` and `SP` is restored: 42_stack.md R112, by R110, R111 (D4, log entry 3). The opcode bytes 0x45
and 0x46 are 30_encoding.md R66 by decision D1, log entry 1; `PC` modulo 256 is decision D3, log entry 2. -/
def Obligations.PushThenPop : Prop :=
  ∀ (s : State) (a b : RegIdx), s.run = .running → a ≠ 7 → b ≠ 7 →
    s.memRead s.pc = 0x45 → s.memRead (s.pcPlus 1) = regByte a →
    s.memRead (s.pcPlus 2) = 0x46 → s.memRead (s.pcPlus 3) = regByte b →
    spPush s.sp ≠ s.pcPlus 2 → spPush s.sp ≠ s.pcPlus 3 →
    ∃ t u, step s = .next t ∧ step t = .next u ∧ u.readReg b = s.readReg a ∧ u.sp = s.sp ∧ u.pc = s.pcPlus 4 ∧
      SameRegsBut [b] s u ∧ SameMemBut (spPush s.sp) s u ∧ u.fl = s.fl ∧ u.run = s.run ∧ u.out = s.out ∧
      SameFaultRecord s u

/-- A RET in any state that has the `SP` and the byte at `SP` that a CALL left returns to the instruction after the CALL
and restores `SP`: 43_subroutine.md R122. -/
def Obligations.CallThenRet : Prop :=
  ∀ (s t u : State) (r : RegIdx), exec (.call (regByte r)) s = .next t → u.sp = t.sp →
    u.memRead u.sp = t.memRead t.sp → ∃ v, exec .ret u = .next v ∧ v.pc = s.pcPlus 2 ∧ v.sp = s.sp

/-- Once a run has ended, no number of steps changes the state: 40_fetch_decode_execute.md R94, 60_exceptions.md R179,
10_state.md R25 (D7); how the model says it is log entry 10. -/
def Obligations.EndedRunNeverMoves : Prop :=
  ∀ (k : Nat) (s : State), s.ended = true → Sys2Proof.core.run k s = .next s

/-! ### The seven blocks -/

/-- The seven blocks composed are the step, in every state. While RUNNING this is 40_fetch_decode_execute.md R86 to R93;
outside RUNNING both answer the same state, which is log entry 10 (DEDUCED). The index lines of the register_file block
are log entry 18 (DEDUCED). -/
def Obligations.BlocksComposeToStep : Prop :=
  ∀ s : State, blockStep s = step s

/-- The ALU as one function: 45_alu.md R149, the rows of `AluVal` in integer arithmetic and the register-level operation
over it. That the selector `none` stands for every selector outside the ten is the model's choice, log entry 15
(DEDUCED). On a fault `alu` answers the cause and no state; raising it is the instruction's part, and ModByZeroFaults
says it for the one instruction that does. -/
def Obligations.AluAsOneFunction : Prop :=
  (∀ x y : Byte,
    (∃ v, aluVal (some .add) x y = .value v ∧ v.toNat = (x.toNat + y.toNat) % 256) ∧
    (∃ v, aluVal (some .mul) x y = .value v ∧ v.toNat = (x.toNat * y.toNat) % 256) ∧
    (∃ v, aluVal (some .and) x y = .value v ∧ ∀ k, v.getLsbD k = (x.getLsbD k && y.getLsbD k)) ∧
    (∃ v, aluVal (some .or) x y = .value v ∧ ∀ k, v.getLsbD k = (x.getLsbD k || y.getLsbD k)) ∧
    (∃ v, aluVal (some .xor) x y = .value v ∧ ∀ k, v.getLsbD k = (x.getLsbD k != y.getLsbD k)) ∧
    (∃ v, aluVal (some .not) x y = .value v ∧ v.toNat = 255 - y.toNat) ∧
    (y = 0 → aluVal (some .mod) x y = .fault .divisionByZero) ∧
    (y ≠ 0 → ∃ v, aluVal (some .mod) x y = .value v ∧ v.toNat = x.toNat % y.toNat) ∧
    (∃ v, aluVal (some .shl) x y = .value v ∧ v.toNat = (x.toNat * 2 ^ y.toNat) % 256) ∧
    (∃ v, aluVal (some .shr) x y = .value v ∧ v.toNat = x.toNat / 2 ^ y.toNat) ∧
    (∃ f, aluVal (some .cmp) x y = .flags f ∧ (f = .equal ↔ x.toNat = y.toNat) ∧
      (f = .greater ↔ x.toNat > y.toNat) ∧ (f = .less ↔ x.toNat < y.toNat)) ∧
    aluVal none x y = .fault .invalidALUOperation) ∧
  ∀ (op : Option AluOp) (ra rb : RegIdx) (s : State),
    (∀ v, aluVal op (s.readReg ra) (s.readReg rb) = .value v →
      ∃ t, alu op ra rb s = .ok t ∧ t.readReg ra = v ∧ SameRegsBut [ra] s t ∧ t = { s with regs := t.regs }) ∧
    (∀ f, aluVal op (s.readReg ra) (s.readReg rb) = .flags f → alu op ra rb s = .ok { s with fl := f }) ∧
    (∀ c, aluVal op (s.readReg ra) (s.readReg rb) = .fault c → alu op ra rb s = .error c)

/-- In the integrated core the ALU's own error does not occur: no step enters it: 60_exceptions.md R172. -/
def Obligations.AluErrorUnreachable : Prop :=
  ∀ s t : State, step s = .next t → s.faultCause ≠ .invalidALUOperation → t.faultCause ≠ .invalidALUOperation

/-! ### Memory and status encodings -/

/-- `MemRead` after `MemWrite`, and every other cell and every other piece of state unchanged: 20_memory.md R45. -/
def Obligations.ReadAfterWrite : Prop :=
  ∀ (s : State) (addr v : Byte), (s.memWrite addr v).memRead addr = v ∧ SameMemBut addr s (s.memWrite addr v) ∧
    s.memWrite addr v = { s with mem := (s.memWrite addr v).mem }

/-- Two memories in canonical form that read the same at all 256 addresses are equal data: 10_state.md R27,
20_memory.md R40, and the model's own form of memory, log entry 9. -/
def Obligations.CanonicalMemoryIsDetermined : Prop :=
  ∀ m m' : Memory, Memory.wf m → Memory.wf m' → (∀ a : Byte, Memory.read m a.toNat = Memory.read m' a.toNat) → m = m'

/-- The encodings of `FL`, `RUN` and `FAULT_CAUSE`; at most one flag bit is set: 10_state.md R24, R25,
60_exceptions.md R170 (D6, D7, D10). -/
def Obligations.StatusEncodings : Prop :=
  Flag.none.bits = 0b000 ∧ Flag.equal.bits = 0b001 ∧ Flag.greater.bits = 0b010 ∧ Flag.less.bits = 0b100 ∧
    RunState.idle.code = 0 ∧ RunState.running.code = 1 ∧ RunState.halted.code = 2 ∧ RunState.faulted.code = 3 ∧
    FaultCause.none.code = 0 ∧ FaultCause.invalidOpcode.code = 1 ∧ FaultCause.invalidALUOperation.code = 2 ∧
    FaultCause.divisionByZero.code = 3 ∧ FaultCause.invalidRegister.code = 4

/-! ### The invariant -/

/-- The invariant holds after reset. -/
def Obligations.ResetMeetsInvariant : Prop := Inv State.reset

/-- Every step keeps the invariant: memory stays canonical, IDLE keeps the reset values (10_state.md R30), the fault
record is empty unless FAULTED (R26), and in FAULTED it is the first fault of the instruction at `PC`
(60_exceptions.md R170, R177, R178). -/
def Obligations.StepKeepsInvariant : Prop := ∀ s t : State, Inv s → step s = .next t → Inv t

/-- Every move of the host keeps the invariant: 70_reset_and_hazards.md R200 to R204, 20_memory.md R54. -/
def Obligations.HostMovesKeepInvariant : Prop := ∀ (op : HostOp) (s t : State), Inv s → hostOp op s = .next t → Inv t

/-! ### Reset, load, start -/

/-- `reset`, from any state: 70_reset_and_hazards.md R200, 10_state.md R30 (D5, D7, D16). -/
def Obligations.ResetClearsEverything : Prop :=
  ∀ s : State, ∃ t, hostReset s = .next t ∧ t = State.reset ∧ (∀ r, t.readReg r = 0) ∧ t.pc = 0 ∧ t.fl = .none ∧
    t.run = .idle ∧ t.faultCause = .none ∧ t.faultPc = 0 ∧ t.faultInfo = 0 ∧ (∀ x, t.memRead x = 0) ∧ t.out = []

/-- `load` of at most 256 bytes in IDLE writes cell `i` for each index of the image and nothing else: 20_memory.md R54,
70_reset_and_hazards.md R201 (D15). -/
def Obligations.LoadWritesImage : Prop :=
  ∀ (image : List Byte) (s : State), s.run = .idle → image.length ≤ 256 →
    ∃ t, hostLoad image s = .next t ∧ t = { s with mem := t.mem } ∧
      ∀ x : Byte, t.memRead x = image.getD x.toNat (s.memRead x)

/-- What the host is refused: `load` and `start` outside IDLE, and an image of more than 256 bytes in IDLE:
20_memory.md R55, R56, 70_reset_and_hazards.md R204 (D7, D15). Which refusal a load gets for which both hold is the
model's choice, log entry 12. -/
def Obligations.HostRefusals : Prop :=
  ∀ (image : List Byte) (s : State),
    (s.run ≠ .idle → hostLoad image s = .refused .hostOpOutsideIdle ∧ hostStart s = .refused .hostOpOutsideIdle) ∧
      (s.run = .idle → 256 < image.length → hostLoad image s = .refused .programTooLarge)

/-- `start`, whole: 70_reset_and_hazards.md R203. Allowed only in IDLE. -/
def Obligations.StartBeginsRun : Prop :=
  ∀ s : State,
    (s.run = .idle → ∃ t, hostStart s = .next t ∧ t.readReg 7 = 0xF4 ∧ t.run = .running ∧
      SameRegsBut [7] s t ∧ t = { s with regs := t.regs, run := t.run }) ∧
    (s.run ≠ .idle → hostStart s = .refused .hostOpOutsideIdle)

/-- What a program may rely on before its first instruction, whole: 70_reset_and_hazards.md R205. -/
def Obligations.BootState : Prop :=
  ∀ image : List Byte, image.length ≤ 256 → ∃ s t, hostLoad image State.reset = .next s ∧ hostStart s = .next t ∧
    (∀ r, r ≠ 7 → t.readReg r = 0) ∧ t.readReg 7 = 0xF4 ∧ t.pc = 0 ∧ t.fl = .none ∧ t.run = .running ∧
    (∀ x : Byte, t.memRead x = image.getD x.toNat 0) ∧ t.out = []

/-! ### Beside the core -/

/-- The loader reads a line whose first eight characters are the bits of a byte, most significant first, as that byte,
whatever follows: 30_encoding.md R72 (most significant first is the spec's general knowledge, log entry 14). -/
def Obligations.LoaderReadsBits : Prop :=
  ∀ (v : Byte) (rest : List Char),
    parseProgram [(List.range 8).map (fun k => if v.getLsbD (7 - k) then '1' else '0') ++ rest] = some [v]
end

