-- ==== Sys2Proof/Laws/Decode.lean ====
section
/-!
SUPPORT. The decoder's parts: the table lookup under any injective map, and what an instruction is made of.
-/

namespace Sys2Proof

theorem Mnemonic.mem_all (m : Mnemonic) : m ∈ Mnemonic.all := by cases m <;> decide

theorem Config.opcodeMap_injective : Function.Injective Config.opcodeMap := by
  intro m n h
  cases m <;> cases n <;> first | rfl | exact absurd h (by decide)

@[simp] theorem Mnemonic.record_mnemonic (m : Mnemonic) : m.record.mnemonic = m := rfl
@[simp] theorem Mnemonic.record_format (m : Mnemonic) : m.record.format = m.format := rfl
@[simp] theorem Mnemonic.record_nops (m : Mnemonic) : m.record.nops = m.format.nops := rfl
@[simp] theorem Mnemonic.record_aluOp (m : Mnemonic) : m.record.aluOp = m.aluOp := rfl

/-- Whatever the lookup finds is the record of a mnemonic with that opcode byte. -/
theorem decodeOpWith_sound {map : Mnemonic → Byte} {op : Byte} {d : DecodeRecord}
    (h : decodeOpWith map op = some d) : ∃ m, map m = op ∧ d = m.record := by
  obtain ⟨m, hm, rfl⟩ := Option.map_eq_some_iff.mp h
  exact ⟨m, by simpa using List.find?_some hm, rfl⟩

/-- Under an injective map the lookup finds every mnemonic by its opcode byte. -/
theorem decodeOpWith_map {map : Mnemonic → Byte} (h : Function.Injective map) (m : Mnemonic) :
    decodeOpWith map (map m) = some m.record := by
  have hfind : Mnemonic.all.find? (fun n => map n == map m) = some m := by
    cases hf : Mnemonic.all.find? (fun n => map n == map m) with
    | none => simpa using List.find?_eq_none.mp hf m m.mem_all
    | some n => exact congrArg some (h (by simpa using List.find?_some hf))
  simp [decodeOpWith, hfind]

/-- The lookup fails exactly on the bytes that are no opcode (spec/30_encoding.md R68). -/
theorem decodeOpWith_eq_none {map : Mnemonic → Byte} {op : Byte} :
    decodeOpWith map op = none ↔ ∀ m, map m ≠ op := by
  simp only [decodeOpWith, Option.map_eq_none_iff, List.find?_eq_none, beq_iff_eq]
  exact ⟨fun h m => h m m.mem_all, fun h m _ => h m⟩

theorem decodeOp_opcodeMap (m : Mnemonic) : decodeOp (Config.opcodeMap m) = some m.record :=
  decodeOpWith_map Config.opcodeMap_injective m

theorem Mnemonic.build_mnemonic (m : Mnemonic) (a b : Byte) : (m.build a b).mnemonic = m := by cases m <;> rfl

/-- The operand bytes of a built instruction are the ones its format has (spec/30_encoding.md R61). -/
theorem Mnemonic.build_operandBytes (m : Mnemonic) (a b : Byte) :
    (m.build a b).operandBytes = [a, b].take m.format.nops := by cases m <;> rfl

theorem Instr.operandBytes_length (i : Instr) : i.operandBytes.length = i.mnemonic.format.nops := by cases i <;> rfl

theorem tableByte_eq (nbits w k : Nat) :
    tableByte nbits w k = BitVec.ofNat 8 (w % 2 ^ nbits / 2 ^ (8 * k)) := rfl

end Sys2Proof
end

