-- ==== Sys2Proof/Laws/State.lean ====
section
/-!
SUPPORT. The small lemmas of the state: one per field per update, and how the accessors `readReg`, `sp` and `memRead`
see each update that does not touch what they read.
-/

namespace Sys2Proof.Machine

variable (s : State)

@[simp] theorem State.writeReg_regs (i : RegIdx) (v : Byte) : (s.writeReg i v).regs = s.regs.set i v := rfl
@[simp] theorem State.writeReg_pc (i : RegIdx) (v : Byte) : (s.writeReg i v).pc = s.pc := rfl
@[simp] theorem State.writeReg_fl (i : RegIdx) (v : Byte) : (s.writeReg i v).fl = s.fl := rfl
@[simp] theorem State.writeReg_run (i : RegIdx) (v : Byte) : (s.writeReg i v).run = s.run := rfl
@[simp] theorem State.writeReg_faultCause (i : RegIdx) (v : Byte) : (s.writeReg i v).faultCause = s.faultCause := rfl
@[simp] theorem State.writeReg_faultPc (i : RegIdx) (v : Byte) : (s.writeReg i v).faultPc = s.faultPc := rfl
@[simp] theorem State.writeReg_faultInfo (i : RegIdx) (v : Byte) : (s.writeReg i v).faultInfo = s.faultInfo := rfl
@[simp] theorem State.writeReg_mem (i : RegIdx) (v : Byte) : (s.writeReg i v).mem = s.mem := rfl
@[simp] theorem State.writeReg_out (i : RegIdx) (v : Byte) : (s.writeReg i v).out = s.out := rfl
@[simp] theorem State.writeReg_memRead (i : RegIdx) (v : Byte) (x : Byte) : (s.writeReg i v).memRead x = s.memRead x := rfl
@[simp] theorem State.writeReg_pcPlus (i : RegIdx) (v : Byte) (k : Nat) : (s.writeReg i v).pcPlus k = s.pcPlus k := rfl

@[simp] theorem State.memWrite_regs (a v : Byte) : (s.memWrite a v).regs = s.regs := rfl
@[simp] theorem State.memWrite_pc (a v : Byte) : (s.memWrite a v).pc = s.pc := rfl
@[simp] theorem State.memWrite_fl (a v : Byte) : (s.memWrite a v).fl = s.fl := rfl
@[simp] theorem State.memWrite_run (a v : Byte) : (s.memWrite a v).run = s.run := rfl
@[simp] theorem State.memWrite_faultCause (a v : Byte) : (s.memWrite a v).faultCause = s.faultCause := rfl
@[simp] theorem State.memWrite_faultPc (a v : Byte) : (s.memWrite a v).faultPc = s.faultPc := rfl
@[simp] theorem State.memWrite_faultInfo (a v : Byte) : (s.memWrite a v).faultInfo = s.faultInfo := rfl
@[simp] theorem State.memWrite_mem (a v : Byte) : (s.memWrite a v).mem = Memory.write s.mem a.toNat v := rfl
@[simp] theorem State.memWrite_out (a v : Byte) : (s.memWrite a v).out = s.out := rfl
@[simp] theorem State.memWrite_readReg (a v : Byte) (q : RegIdx) : (s.memWrite a v).readReg q = s.readReg q := rfl
@[simp] theorem State.memWrite_sp (a v : Byte) : (s.memWrite a v).sp = s.sp := rfl
@[simp] theorem State.memWrite_pcPlus (a v : Byte) (k : Nat) : (s.memWrite a v).pcPlus k = s.pcPlus k := rfl

@[simp] theorem State.setPc_regs (p : Byte) : (s.setPc p).regs = s.regs := rfl
@[simp] theorem State.setPc_pc (p : Byte) : (s.setPc p).pc = p := rfl
@[simp] theorem State.setPc_fl (p : Byte) : (s.setPc p).fl = s.fl := rfl
@[simp] theorem State.setPc_run (p : Byte) : (s.setPc p).run = s.run := rfl
@[simp] theorem State.setPc_faultCause (p : Byte) : (s.setPc p).faultCause = s.faultCause := rfl
@[simp] theorem State.setPc_faultPc (p : Byte) : (s.setPc p).faultPc = s.faultPc := rfl
@[simp] theorem State.setPc_faultInfo (p : Byte) : (s.setPc p).faultInfo = s.faultInfo := rfl
@[simp] theorem State.setPc_mem (p : Byte) : (s.setPc p).mem = s.mem := rfl
@[simp] theorem State.setPc_out (p : Byte) : (s.setPc p).out = s.out := rfl
@[simp] theorem State.setPc_readReg (p : Byte) (q : RegIdx) : (s.setPc p).readReg q = s.readReg q := rfl
@[simp] theorem State.setPc_sp (p : Byte) : (s.setPc p).sp = s.sp := rfl
@[simp] theorem State.setPc_memRead (p : Byte) (x : Byte) : (s.setPc p).memRead x = s.memRead x := rfl

@[simp] theorem State.advance_regs (n : Nat) : (s.advance n).regs = s.regs := rfl
@[simp] theorem State.advance_pc (n : Nat) : (s.advance n).pc = s.pcPlus n := rfl
@[simp] theorem State.advance_fl (n : Nat) : (s.advance n).fl = s.fl := rfl
@[simp] theorem State.advance_run (n : Nat) : (s.advance n).run = s.run := rfl
@[simp] theorem State.advance_faultCause (n : Nat) : (s.advance n).faultCause = s.faultCause := rfl
@[simp] theorem State.advance_faultPc (n : Nat) : (s.advance n).faultPc = s.faultPc := rfl
@[simp] theorem State.advance_faultInfo (n : Nat) : (s.advance n).faultInfo = s.faultInfo := rfl
@[simp] theorem State.advance_mem (n : Nat) : (s.advance n).mem = s.mem := rfl
@[simp] theorem State.advance_out (n : Nat) : (s.advance n).out = s.out := rfl
@[simp] theorem State.advance_readReg (n : Nat) (q : RegIdx) : (s.advance n).readReg q = s.readReg q := rfl
@[simp] theorem State.advance_sp (n : Nat) : (s.advance n).sp = s.sp := rfl
@[simp] theorem State.advance_memRead (n : Nat) (x : Byte) : (s.advance n).memRead x = s.memRead x := rfl

@[simp] theorem State.emit_regs (v : Byte) : (s.emit v).regs = s.regs := rfl
@[simp] theorem State.emit_pc (v : Byte) : (s.emit v).pc = s.pc := rfl
@[simp] theorem State.emit_fl (v : Byte) : (s.emit v).fl = s.fl := rfl
@[simp] theorem State.emit_run (v : Byte) : (s.emit v).run = s.run := rfl
@[simp] theorem State.emit_faultCause (v : Byte) : (s.emit v).faultCause = s.faultCause := rfl
@[simp] theorem State.emit_faultPc (v : Byte) : (s.emit v).faultPc = s.faultPc := rfl
@[simp] theorem State.emit_faultInfo (v : Byte) : (s.emit v).faultInfo = s.faultInfo := rfl
@[simp] theorem State.emit_mem (v : Byte) : (s.emit v).mem = s.mem := rfl
@[simp] theorem State.emit_out (v : Byte) : (s.emit v).out = s.out ++ [v] := rfl
@[simp] theorem State.emit_readReg (v : Byte) (q : RegIdx) : (s.emit v).readReg q = s.readReg q := rfl
@[simp] theorem State.emit_sp (v : Byte) : (s.emit v).sp = s.sp := rfl
@[simp] theorem State.emit_memRead (v : Byte) (x : Byte) : (s.emit v).memRead x = s.memRead x := rfl
@[simp] theorem State.emit_pcPlus (v : Byte) (k : Nat) : (s.emit v).pcPlus k = s.pcPlus k := rfl

@[simp] theorem State.enterFault_regs (c : FaultCause) (v : Byte) : (s.enterFault c v).regs = s.regs := rfl
@[simp] theorem State.enterFault_pc (c : FaultCause) (v : Byte) : (s.enterFault c v).pc = s.pc := rfl
@[simp] theorem State.enterFault_fl (c : FaultCause) (v : Byte) : (s.enterFault c v).fl = s.fl := rfl
@[simp] theorem State.enterFault_run (c : FaultCause) (v : Byte) : (s.enterFault c v).run = .faulted := rfl
@[simp] theorem State.enterFault_faultCause (c : FaultCause) (v : Byte) : (s.enterFault c v).faultCause = c := rfl
@[simp] theorem State.enterFault_faultPc (c : FaultCause) (v : Byte) : (s.enterFault c v).faultPc = s.pc := rfl
@[simp] theorem State.enterFault_faultInfo (c : FaultCause) (v : Byte) : (s.enterFault c v).faultInfo = v := rfl
@[simp] theorem State.enterFault_mem (c : FaultCause) (v : Byte) : (s.enterFault c v).mem = s.mem := rfl
@[simp] theorem State.enterFault_out (c : FaultCause) (v : Byte) : (s.enterFault c v).out = s.out := rfl
@[simp] theorem State.enterFault_readReg (c : FaultCause) (v : Byte) (q : RegIdx) : (s.enterFault c v).readReg q = s.readReg q := rfl
@[simp] theorem State.enterFault_sp (c : FaultCause) (v : Byte) : (s.enterFault c v).sp = s.sp := rfl
@[simp] theorem State.enterFault_memRead (c : FaultCause) (v : Byte) (x : Byte) : (s.enterFault c v).memRead x = s.memRead x := rfl
@[simp] theorem State.enterFault_pcPlus (c : FaultCause) (v : Byte) (k : Nat) : (s.enterFault c v).pcPlus k = s.pcPlus k := rfl

@[simp] theorem State.decSp_regs : (s.decSp).regs = s.regs.set Config.spIndex (spPush s.sp) := rfl
@[simp] theorem State.decSp_pc : (s.decSp).pc = s.pc := rfl
@[simp] theorem State.decSp_fl : (s.decSp).fl = s.fl := rfl
@[simp] theorem State.decSp_run : (s.decSp).run = s.run := rfl
@[simp] theorem State.decSp_faultCause : (s.decSp).faultCause = s.faultCause := rfl
@[simp] theorem State.decSp_faultPc : (s.decSp).faultPc = s.faultPc := rfl
@[simp] theorem State.decSp_faultInfo : (s.decSp).faultInfo = s.faultInfo := rfl
@[simp] theorem State.decSp_mem : (s.decSp).mem = s.mem := rfl
@[simp] theorem State.decSp_out : (s.decSp).out = s.out := rfl
@[simp] theorem State.decSp_memRead (x : Byte) : (s.decSp).memRead x = s.memRead x := rfl
@[simp] theorem State.decSp_pcPlus (k : Nat) : (s.decSp).pcPlus k = s.pcPlus k := rfl

@[simp] theorem State.incSp_regs : (s.incSp).regs = s.regs.set Config.spIndex (spPop s.sp) := rfl
@[simp] theorem State.incSp_pc : (s.incSp).pc = s.pc := rfl
@[simp] theorem State.incSp_fl : (s.incSp).fl = s.fl := rfl
@[simp] theorem State.incSp_run : (s.incSp).run = s.run := rfl
@[simp] theorem State.incSp_faultCause : (s.incSp).faultCause = s.faultCause := rfl
@[simp] theorem State.incSp_faultPc : (s.incSp).faultPc = s.faultPc := rfl
@[simp] theorem State.incSp_faultInfo : (s.incSp).faultInfo = s.faultInfo := rfl
@[simp] theorem State.incSp_mem : (s.incSp).mem = s.mem := rfl
@[simp] theorem State.incSp_out : (s.incSp).out = s.out := rfl
@[simp] theorem State.incSp_memRead (x : Byte) : (s.incSp).memRead x = s.memRead x := rfl
@[simp] theorem State.incSp_pcPlus (k : Nat) : (s.incSp).pcPlus k = s.pcPlus k := rfl

@[simp] theorem State.storeTop_regs (v : Byte) : (s.storeTop v).regs = s.regs := rfl
@[simp] theorem State.storeTop_pc (v : Byte) : (s.storeTop v).pc = s.pc := rfl
@[simp] theorem State.storeTop_fl (v : Byte) : (s.storeTop v).fl = s.fl := rfl
@[simp] theorem State.storeTop_run (v : Byte) : (s.storeTop v).run = s.run := rfl
@[simp] theorem State.storeTop_faultCause (v : Byte) : (s.storeTop v).faultCause = s.faultCause := rfl
@[simp] theorem State.storeTop_faultPc (v : Byte) : (s.storeTop v).faultPc = s.faultPc := rfl
@[simp] theorem State.storeTop_faultInfo (v : Byte) : (s.storeTop v).faultInfo = s.faultInfo := rfl
@[simp] theorem State.storeTop_mem (v : Byte) : (s.storeTop v).mem = Memory.write s.mem s.sp.toNat v := rfl
@[simp] theorem State.storeTop_out (v : Byte) : (s.storeTop v).out = s.out := rfl
@[simp] theorem State.storeTop_readReg (v : Byte) (q : RegIdx) : (s.storeTop v).readReg q = s.readReg q := rfl
@[simp] theorem State.storeTop_sp (v : Byte) : (s.storeTop v).sp = s.sp := rfl
@[simp] theorem State.storeTop_pcPlus (v : Byte) (k : Nat) : (s.storeTop v).pcPlus k = s.pcPlus k := rfl

@[simp] theorem State.startRun_regs : (s.startRun).regs = s.regs.set Config.spIndex Config.spInit := rfl
@[simp] theorem State.startRun_pc : (s.startRun).pc = s.pc := rfl
@[simp] theorem State.startRun_fl : (s.startRun).fl = s.fl := rfl
@[simp] theorem State.startRun_run : (s.startRun).run = .running := rfl
@[simp] theorem State.startRun_faultCause : (s.startRun).faultCause = s.faultCause := rfl
@[simp] theorem State.startRun_faultPc : (s.startRun).faultPc = s.faultPc := rfl
@[simp] theorem State.startRun_faultInfo : (s.startRun).faultInfo = s.faultInfo := rfl
@[simp] theorem State.startRun_mem : (s.startRun).mem = s.mem := rfl
@[simp] theorem State.startRun_out : (s.startRun).out = s.out := rfl
@[simp] theorem State.startRun_memRead (x : Byte) : (s.startRun).memRead x = s.memRead x := rfl
@[simp] theorem State.startRun_pcPlus (k : Nat) : (s.startRun).pcPlus k = s.pcPlus k := rfl

@[simp] theorem State.with_fl_readReg (f : Flag) (q : RegIdx) : ({ s with fl := f } : State).readReg q = s.readReg q := rfl
@[simp] theorem State.with_fl_memRead (f : Flag) (x : Byte) : ({ s with fl := f } : State).memRead x = s.memRead x := rfl
@[simp] theorem State.with_fl_pcPlus (f : Flag) (k : Nat) : ({ s with fl := f } : State).pcPlus k = s.pcPlus k := rfl
@[simp] theorem State.with_run_readReg (r : RunState) (q : RegIdx) : ({ s with run := r } : State).readReg q = s.readReg q := rfl
@[simp] theorem State.with_run_memRead (r : RunState) (x : Byte) : ({ s with run := r } : State).memRead x = s.memRead x := rfl
@[simp] theorem State.with_run_pcPlus (r : RunState) (k : Nat) : ({ s with run := r } : State).pcPlus k = s.pcPlus k := rfl

end Sys2Proof.Machine
end

