-- ==== Sys2Proof/Laws/Ops.lean ====
section
/-!
SUPPORT. What each shared operation can do, once: registers, operand checks, fault entry, the ALU.
-/

namespace Sys2Proof.Machine

/-- A register read after a register write (spec/40_fetch_decode_execute.md R88). -/
theorem State.readReg_writeReg (s : State) (i : RegIdx) (v : Byte) (q : RegIdx) :
    (s.writeReg i v).readReg q = if q = i then v else s.readReg q := by
  simp [State.writeReg, State.readReg, Vector.getElem_set, Fin.ext_iff, eq_comm]

@[simp] theorem State.readReg_writeReg_same (s : State) (i : RegIdx) (v : Byte) :
    (s.writeReg i v).readReg i = v := by simp [State.readReg_writeReg]

theorem State.readReg_writeReg_ne (s : State) {i q : RegIdx} (v : Byte) (h : q ≠ i) :
    (s.writeReg i v).readReg q = s.readReg q := by simp [State.readReg_writeReg, h]

theorem State.readReg_decSp (s : State) (q : RegIdx) :
    s.decSp.readReg q = if q = Config.spIndex then spPush s.sp else s.readReg q := State.readReg_writeReg ..

theorem State.readReg_incSp (s : State) (q : RegIdx) :
    s.incSp.readReg q = if q = Config.spIndex then spPop s.sp else s.readReg q := State.readReg_writeReg ..

@[simp] theorem State.sp_decSp (s : State) : s.decSp.sp = spPush s.sp := State.readReg_writeReg_same ..

@[simp] theorem State.sp_incSp (s : State) : s.incSp.sp = spPop s.sp := State.readReg_writeReg_same ..

/-- A pop's increment undoes a push's decrement, wrap included (spec/10_state.md R22). -/
@[simp] theorem spPop_spPush (x : Byte) : spPop (spPush x) = x := by
  simp [spPop, spPush]

theorem regByte_toNat (r : RegIdx) : (regByte r).toNat = r.val := by
  have := r.isLt
  simp only [regByte, BitVec.toNat_ofNat]
  omega

@[simp] theorem regIndex?_regByte (r : RegIdx) : regIndex? (regByte r) = some r := by
  simp [regIndex?, regByte_toNat, r.isLt]

theorem regByte_injective {r q : RegIdx} (h : regByte r = regByte q) : r = q := by
  have := congrArg BitVec.toNat h
  simp only [regByte_toNat] at this
  exact Fin.ext this

/-- Every byte 0..7 names a register. -/
theorem exists_regByte {b : Byte} (h : b.toNat ≤ 7) : ∃ r, b = regByte r := by
  have h8 : b.toNat < 8 := by omega
  refine ⟨⟨b.toNat, h8⟩, BitVec.eq_of_toNat_eq ?_⟩
  rw [regByte_toNat]

/-- The register check fails exactly on the bytes above 7 (spec/30_encoding.md R65). -/
theorem regIndex?_eq_none {b : Byte} : regIndex? b = none ↔ 7 < b.toNat := by
  unfold regIndex?
  split <;> simp <;> omega

theorem regIndex?_eq_some {b : Byte} {r : RegIdx} : regIndex? b = some r ↔ b = regByte r := by
  constructor
  · intro h
    unfold regIndex? at h
    split at h
    · cases h
      exact BitVec.eq_of_toNat_eq (by rw [regByte_toNat])
    · cases h
  · rintro rfl
    simp

@[simp] theorem withReg_regByte (r : RegIdx) (s : State) (body : RegIdx → Result) :
    withReg (regByte r) s body = body r := by simp [withReg]

theorem withReg_bad {a : Byte} (h : 7 < a.toNat) (s : State) (body : RegIdx → Result) :
    withReg a s body = raise .invalidRegister a s := by simp [withReg, regIndex?_eq_none.mpr h]

/-- What a checked operand can do: the body runs on the named register, or InvalidRegister is raised. -/
theorem withReg_cases (a : Byte) (s : State) (body : RegIdx → Result) :
    (∃ r, a = regByte r ∧ withReg a s body = body r) ∨
      (7 < a.toNat ∧ withReg a s body = raise .invalidRegister a s) := by
  by_cases h : 7 < a.toNat
  · exact .inr ⟨h, withReg_bad h s body⟩
  · obtain ⟨r, rfl⟩ := exists_regByte (b := a) (by omega)
    exact .inl ⟨r, rfl, withReg_regByte r s body⟩

@[simp] theorem withRegs_regByte (ra rb : RegIdx) (s : State) (body : RegIdx → RegIdx → Result) :
    withRegs (regByte ra) (regByte rb) s body = body ra rb := by simp [withRegs]

/-- What two checked operands can do, `a` before `b` (spec/40_fetch_decode_execute.md R82). -/
theorem withRegs_cases (a b : Byte) (s : State) (body : RegIdx → RegIdx → Result) :
    (∃ ra rb, a = regByte ra ∧ b = regByte rb ∧ withRegs a b s body = body ra rb) ∨
      (7 < a.toNat ∧ withRegs a b s body = raise .invalidRegister a s) ∨
      (a.toNat ≤ 7 ∧ 7 < b.toNat ∧ withRegs a b s body = raise .invalidRegister b s) := by
  rcases withReg_cases a s (fun ra => withReg b s fun rb => body ra rb) with ⟨ra, rfl, h⟩ | ⟨ha, h⟩
  · rcases withReg_cases b s (fun rb => body ra rb) with ⟨rb, rfl, h'⟩ | ⟨hb, h'⟩
    · exact .inl ⟨ra, rb, rfl, rfl, h.trans h'⟩
    · refine .inr (.inr ⟨?_, hb, h.trans h'⟩)
      rw [regByte_toNat]
      omega
  · exact .inr (.inl ⟨ha, h⟩)

/-- Taking an exception always answers the state of fault entry (spec/60_exceptions.md R178). -/
theorem raise_eq (c : FaultCause) (info : Byte) (s : State) : raise c info s = .next (s.enterFault c info) := rfl


/-- What an ALU instruction can do: write its value to `R[a]`, write `FL`, or raise the ALU's fault. -/
theorem aluStep_cases (m : Mnemonic) (op : AluOp) (len : Nat) (ra rb : RegIdx) (s : State) :
    (∃ v, aluVal (some op) (s.readReg ra) (s.readReg rb) = .value v ∧
      aluStep m op len ra rb s = .next ((s.writeReg ra v).advance len)) ∨
    (∃ f, aluVal (some op) (s.readReg ra) (s.readReg rb) = .flags f ∧
      aluStep m op len ra rb s = .next ({ s with fl := f }.advance len)) ∨
    (∃ c, aluVal (some op) (s.readReg ra) (s.readReg rb) = .fault c ∧
      aluStep m op len ra rb s = raise c (Config.opcodeMap m) s) := by
  unfold aluStep alu
  cases aluVal (some op) (s.readReg ra) (s.readReg rb) with
  | value v => exact .inl ⟨v, rfl, rfl⟩
  | flags f => exact .inr (.inl ⟨f, rfl, rfl⟩)
  | fault c => exact .inr (.inr ⟨c, rfl, rfl⟩)

theorem aluStep_value {op : AluOp} {ra rb : RegIdx} {s : State} {v : Byte}
    (h : aluVal (some op) (s.readReg ra) (s.readReg rb) = .value v) (m : Mnemonic) (len : Nat) :
    aluStep m op len ra rb s = .next ((s.writeReg ra v).advance len) := by simp [aluStep, alu, h]

theorem aluStep_flags {op : AluOp} {ra rb : RegIdx} {s : State} {f : Flag}
    (h : aluVal (some op) (s.readReg ra) (s.readReg rb) = .flags f) (m : Mnemonic) (len : Nat) :
    aluStep m op len ra rb s = .next ({ s with fl := f }.advance len) := by simp [aluStep, alu, h]

theorem aluStep_fault {op : AluOp} {ra rb : RegIdx} {s : State} {c : FaultCause}
    (h : aluVal (some op) (s.readReg ra) (s.readReg rb) = .fault c) (m : Mnemonic) (len : Nat) :
    aluStep m op len ra rb s = raise c (Config.opcodeMap m) s := by simp [aluStep, alu, h]

theorem aluVal_mod_zero (x : Byte) : aluVal (some .mod) x 0 = .fault .divisionByZero := rfl

theorem aluVal_mod {x y : Byte} (h : y ≠ 0) : aluVal (some .mod) x y = .value (x % y) := if_neg h

/-- The address `n` bytes on, as a number (spec/10_state.md R23). -/
theorem State.pcPlus_toNat (s : State) (n : Nat) : (s.pcPlus n).toNat = (s.pc.toNat + n) % 256 := by
  simp [State.pcPlus, BitVec.toNat_add]

end Sys2Proof.Machine
end

