-- ==== Sys2Proof/Laws/Exec.lean ====
section
/-!
SUPPORT. One equation per instruction, for operands that name registers: the state it answers, written with the shared
operations, so that later proofs cite it and do not unfold a meaning again. For operand bytes above 7 see
`withReg_bad`, `withReg_cases` and `withRegs_cases`.
-/

namespace Sys2Proof.Machine

variable (s : State) (r q : RegIdx)

theorem exec_ldi (imm : Byte) : exec (.ldi (regByte r) imm) s = .next ((s.writeReg r imm).advance 3) :=
  withReg_regByte ..

theorem exec_prn : exec (.prn (regByte r)) s = .next ((s.emit (s.readReg r)).advance 2) := withReg_regByte ..

theorem exec_push :
    exec (.push (regByte r)) s = .next ((s.decSp.storeTop (s.decSp.readReg r)).advance 2) := withReg_regByte ..

theorem exec_pop : exec (.pop (regByte r)) s = .next ((s.writeReg r s.loadTop).incSp.advance 2) := withReg_regByte ..

theorem exec_call :
    exec (.call (regByte r)) s = .next ((s.decSp.storeTop (s.pcPlus 2)).setPc (s.decSp.readReg r)) :=
  withReg_regByte ..

theorem exec_ret : exec .ret s = .next (s.incSp.setPc s.loadTop) := rfl

theorem exec_cmp : exec (.cmp (regByte r) (regByte q)) s =
    .next ({ s with fl := compareFlag (s.readReg r) (s.readReg q) }.advance 3) := withRegs_regByte ..

theorem exec_jmp : exec (.jmp (regByte r)) s = .next (s.setPc (s.readReg r)) := withReg_regByte ..

theorem exec_jeq : exec (.jeq (regByte r)) s =
    .next (if s.fl.isEqual then s.setPc (s.readReg r) else s.advance 2) := withReg_regByte ..

theorem exec_jne : exec (.jne (regByte r)) s =
    .next (if !s.fl.isEqual then s.setPc (s.readReg r) else s.advance 2) := withReg_regByte ..

theorem exec_add : exec (.add (regByte r) (regByte q)) s =
    .next ((s.writeReg r (s.readReg r + s.readReg q)).advance 3) := withRegs_regByte ..

theorem exec_mul : exec (.mul (regByte r) (regByte q)) s =
    .next ((s.writeReg r (s.readReg r * s.readReg q)).advance 3) := withRegs_regByte ..

theorem exec_and : exec (.and (regByte r) (regByte q)) s =
    .next ((s.writeReg r (s.readReg r &&& s.readReg q)).advance 3) := withRegs_regByte ..

theorem exec_or : exec (.or (regByte r) (regByte q)) s =
    .next ((s.writeReg r (s.readReg r ||| s.readReg q)).advance 3) := withRegs_regByte ..

theorem exec_xor : exec (.xor (regByte r) (regByte q)) s =
    .next ((s.writeReg r (s.readReg r ^^^ s.readReg q)).advance 3) := withRegs_regByte ..

theorem exec_mod (h : s.readReg q ≠ 0) : exec (.mod (regByte r) (regByte q)) s =
    .next ((s.writeReg r (s.readReg r % s.readReg q)).advance 3) :=
  (withRegs_regByte ..).trans (aluStep_value (aluVal_mod h) ..)

theorem exec_mod_zero (h : s.readReg q = 0) :
    exec (.mod (regByte r) (regByte q)) s = raise .divisionByZero 0xA4 s :=
  (withRegs_regByte ..).trans (aluStep_fault (h ▸ aluVal_mod_zero _) ..)

theorem exec_shl : exec (.shl (regByte r) (regByte q)) s =
    .next ((s.writeReg r (s.readReg r <<< (s.readReg q).toNat)).advance 3) := withRegs_regByte ..

theorem exec_shr : exec (.shr (regByte r) (regByte q)) s =
    .next ((s.writeReg r (s.readReg r >>> (s.readReg q).toNat)).advance 3) := withRegs_regByte ..

theorem exec_not : exec (.not (regByte r)) s = .next ((s.writeReg r (~~~s.readReg r)).advance 2) :=
  withReg_regByte ..

theorem exec_hlt : exec .hlt s = .next ({ s with run := .halted }.advance 1) := rfl

/-- A step while RUNNING executes what fetch and decode give, or raises InvalidOpcode (spec/40 R80). -/
theorem step_running (h : s.run = .running) : step s = match s.fetchDecode with
    | some i => exec i s
    | none => raise .invalidOpcode (s.memRead s.pc) s := if_pos h

/-- Outside RUNNING a step answers the same state. -/
theorem step_not_running (h : s.run ≠ .running) : step s = .next s := if_neg h

/-- The first register byte above 7 decides well-formedness. -/
theorem Instr.badRegister_cases (i : Instr) :
    (∃ b, i.badRegister = some b ∧ 7 < b.toNat ∧ i.wellFormed = false) ∨
      (i.badRegister = none ∧ i.wellFormed = true) := by
  by_cases h : i.wellFormed = true
  · refine .inr ⟨List.find?_eq_none.mpr fun b hb => ?_, h⟩
    have := List.all_eq_true.mp h b hb
    simp only [decide_eq_true_eq] at this ⊢
    omega
  · cases hf : i.badRegister with
    | some b => exact .inl ⟨b, rfl, by simpa using List.find?_some hf, by simpa using h⟩
    | none =>
      refine absurd (List.all_eq_true.mpr fun b hb => ?_) h
      have := List.find?_eq_none.mp hf b hb
      simp only [decide_eq_true_eq] at this ⊢
      omega

/-- A well-formed instruction, written with the registers its operand bytes name. -/
theorem Instr.wellFormed_cases {i : Instr} (h : i.wellFormed = true) :
    (∃ r v, i = .ldi (regByte r) v) ∨ (∃ r, i = .prn (regByte r)) ∨ (∃ r, i = .push (regByte r)) ∨
    (∃ r, i = .pop (regByte r)) ∨ (∃ r, i = .call (regByte r)) ∨ i = .ret ∨
    (∃ r q, i = .cmp (regByte r) (regByte q)) ∨ (∃ r, i = .jmp (regByte r)) ∨ (∃ r, i = .jeq (regByte r)) ∨
    (∃ r, i = .jne (regByte r)) ∨ (∃ r q, i = .add (regByte r) (regByte q)) ∨
    (∃ r q, i = .mul (regByte r) (regByte q)) ∨ (∃ r q, i = .and (regByte r) (regByte q)) ∨
    (∃ r q, i = .or (regByte r) (regByte q)) ∨ (∃ r q, i = .xor (regByte r) (regByte q)) ∨
    (∃ r q, i = .mod (regByte r) (regByte q)) ∨ (∃ r q, i = .shl (regByte r) (regByte q)) ∨
    (∃ r q, i = .shr (regByte r) (regByte q)) ∨ (∃ r, i = .not (regByte r)) ∨ i = .hlt := by
  cases i <;> simp only [Instr.wellFormed, Instr.regOperands, List.all_cons, List.all_nil, Bool.and_true,
    Bool.and_eq_true, decide_eq_true_eq] at h
  case ret => simp
  case hlt => simp
  case ldi | prn | push | pop | call | jmp | jeq | jne | not =>
    obtain ⟨r, rfl⟩ := exists_regByte h
    simp
  all_goals
    obtain ⟨r, rfl⟩ := exists_regByte h.1
    obtain ⟨q, rfl⟩ := exists_regByte h.2
    simp

theorem State.fetchDecode_of_opcode {m : Mnemonic} (h : s.memRead s.pc = Config.opcodeMap m) :
    s.fetchDecode = some (m.build (s.memRead (s.pcPlus 1)) (s.memRead (s.pcPlus 2))) := by
  cases m <;> simp only [State.fetchDecode, h] <;> rfl

theorem State.fetchDecode_eq_none : s.fetchDecode = none ↔ decodeOp (s.memRead s.pc) = none := by
  unfold State.fetchDecode
  split <;> simp_all

end Sys2Proof.Machine
end

