-- ==== Sys2Proof/Laws/Memory.lean ====
section
/-!
SUPPORT. Memory as the spec's primitives see it (spec/20_memory.md R45): a read after a write, and that every memory
operation keeps the canonical form.
-/

namespace Sys2Proof.Machine

@[simp] theorem Memory.read_nil (x : Nat) : Memory.read [] x = Memory.unlisted := rfl

theorem Memory.read_cons (c : Host.Cell) (m : Memory) (x : Nat) :
    Memory.read (c :: m) x = if c.1 = x then c.2 else Memory.read m x := rfl

theorem Memory.mem_erase {c : Host.Cell} {a : Nat} : ∀ {m : Memory}, c ∈ Memory.erase a m ↔ c ∈ m ∧ c.1 ≠ a
  | [] => by simp [Memory.erase]
  | d :: m => by
    have ih := Memory.mem_erase (c := c) (a := a) (m := m)
    by_cases h : d.1 = a
    · simp only [Memory.erase, h, if_true, ih, List.mem_cons]
      constructor
      · exact fun ⟨h1, h2⟩ => ⟨.inr h1, h2⟩
      · rintro ⟨rfl | h1, h2⟩
        · exact absurd h h2
        · exact ⟨h1, h2⟩
    · simp only [Memory.erase, h, if_false, ih, List.mem_cons]
      constructor
      · rintro (rfl | ⟨h1, h2⟩)
        · exact ⟨.inl rfl, h⟩
        · exact ⟨.inr h1, h2⟩
      · rintro ⟨rfl | h1, h2⟩
        · exact .inl rfl
        · exact .inr ⟨h1, h2⟩

theorem Memory.mem_insert {c : Host.Cell} {a : Nat} {v : Byte} :
    ∀ {m : Memory}, c ∈ Memory.insert a v m ↔ c = (a, v) ∨ c ∈ m
  | [] => by simp [Memory.insert]
  | d :: m => by
    have ih := Memory.mem_insert (c := c) (a := a) (v := v) (m := m)
    unfold Memory.insert
    split <;> simp only [List.mem_cons, ih]
    tauto

theorem Memory.read_erase (a x : Nat) : ∀ m : Memory,
    Memory.read (Memory.erase a m) x = if x = a then Memory.unlisted else Memory.read m x
  | [] => by simp [Memory.erase]
  | d :: m => by
    have ih := Memory.read_erase a x m
    by_cases h : d.1 = a <;> by_cases hx : d.1 = x <;> simp_all [Memory.erase, Memory.read_cons, eq_comm]

theorem Memory.read_insert (a : Nat) (v : Byte) (x : Nat) : ∀ m : Memory, (∀ c ∈ m, c.1 ≠ a) →
    Memory.read (Memory.insert a v m) x = if x = a then v else Memory.read m x
  | [], _ => by simp [Memory.insert, Memory.read_cons, eq_comm]
  | d :: m, h => by
    have ih := Memory.read_insert a v x m fun c hc => h c (List.mem_cons_of_mem _ hc)
    have hd : d.1 ≠ a := h d List.mem_cons_self
    unfold Memory.insert
    split
    · simp [Memory.read_cons, eq_comm]
    · simp only [Memory.read_cons, ih]
      by_cases hx : d.1 = x
      · subst hx
        simp [hd]
      · simp [hx]

/-- A read after a write: the written value at the written address, the old one elsewhere (20_memory.md R45). -/
theorem Memory.read_write (m : Memory) (a : Nat) (v : Byte) (x : Nat) :
    Memory.read (Memory.write m a v) x = if x = a then v else Memory.read m x := by
  unfold Memory.write
  split
  · simp_all [Memory.read_erase]
  · rw [Memory.read_insert _ _ _ _ fun c hc => (Memory.mem_erase.mp hc).2, Memory.read_erase]
    split <;> rfl

theorem Memory.wf_erase {m : Memory} (h : Memory.wf m) (a : Nat) : Memory.wf (Memory.erase a m) := by
  refine ⟨?_, fun c hc => h.2 c (Memory.mem_erase.mp hc).1⟩
  have hp := h.1
  clear h
  induction m with
  | nil => exact hp
  | cons d m ih =>
    have ⟨h1, h2⟩ := List.pairwise_cons.mp hp
    unfold Memory.erase
    split
    · exact ih h2
    · exact List.pairwise_cons.mpr ⟨fun c hc => h1 c (Memory.mem_erase.mp hc).1, ih h2⟩

theorem Memory.pairwise_insert {a : Nat} {v : Byte} : ∀ {m : Memory}, m.Pairwise (fun c d => c.1 < d.1) →
    (∀ c ∈ m, c.1 ≠ a) → (Memory.insert a v m).Pairwise fun c d => c.1 < d.1
  | [], _, _ => by simp [Memory.insert]
  | d :: m, hp, ha => by
    have ⟨h1, h2⟩ := List.pairwise_cons.mp hp
    have hd : d.1 ≠ a := ha d List.mem_cons_self
    unfold Memory.insert
    split
    · rename_i hlt
      refine List.pairwise_cons.mpr ⟨fun c hc => ?_, hp⟩
      rcases List.mem_cons.mp hc with rfl | hc
      · exact hlt
      · exact Nat.lt_trans hlt (h1 c hc)
    · rename_i hlt
      refine List.pairwise_cons.mpr ⟨fun c hc => ?_, ?_⟩
      · rcases Memory.mem_insert.mp hc with rfl | hc
        · show d.1 < a
          omega
        · exact h1 c hc
      · exact Memory.pairwise_insert h2 fun c hc => ha c (List.mem_cons_of_mem _ hc)

/-- A write inside the address space keeps the canonical form. -/
theorem Memory.wf_write {m : Memory} (h : Memory.wf m) {a : Nat} (ha : a < Config.memSize) (v : Byte) :
    Memory.wf (Memory.write m a v) := by
  have he := Memory.wf_erase h a
  unfold Memory.write
  split
  · exact he
  · rename_i hv
    refine ⟨Memory.pairwise_insert he.1 fun c hc => (Memory.mem_erase.mp hc).2, fun c hc => ?_⟩
    rcases Memory.mem_insert.mp hc with rfl | hc
    · exact ⟨ha, hv⟩
    · exact he.2 c hc

/-- A write through a byte address keeps the canonical form: every byte is an address (20_memory.md R41). -/
theorem State.wf_memWrite {s : State} (h : Memory.wf s.mem) (a v : Byte) : Memory.wf (s.memWrite a v).mem :=
  Memory.wf_write h a.isLt v

/-- Loading an image keeps the canonical form. -/
theorem Memory.wf_loadFrom : ∀ (image : List Byte) (base : Byte) {m : Memory}, Memory.wf m →
    Memory.wf (Memory.loadFrom base image m)
  | [], _, _, h => h
  | v :: rest, base, _, h => Memory.wf_loadFrom rest (base + 1) (Memory.wf_write h base.isLt v)

theorem State.reset_memory_wf : Memory.wf State.reset.mem := by decide

theorem State.reset_memRead (x : Byte) : State.reset.memRead x = 0 := rfl

/-- `MemRead` after `MemWrite` (20_memory.md R45). -/
theorem State.memRead_memWrite (s : State) (a v x : Byte) :
    (s.memWrite a v).memRead x = if x = a then v else s.memRead x := by
  simp only [State.memRead, State.memWrite, Memory.read_write, BitVec.toNat_inj]

theorem State.memRead_storeTop (s : State) (v x : Byte) :
    (s.storeTop v).memRead x = if x = s.sp then v else s.memRead x := State.memRead_memWrite s s.sp v x

end Sys2Proof.Machine
end

