-- ==== Sys2Proof/Laws/PerInstr.lean ====
section
/-!
SUPPORT. The per-instruction family `Encoding`: how long an instruction's encoding is, which byte it begins with, and
that its register-index bytes are among its operand bytes (spec/30_encoding.md R60 to R63, R66, R74).
-/

namespace Sys2Proof.Laws.Encoding

/-- The encoding begins with the mnemonic's opcode byte, has one byte more than the format has operands, and its
register-index bytes are the first of its operand bytes. -/
def Statement (i : Instr) : Prop :=
  (encode i).head? = some (Config.opcodeMap i.mnemonic) ∧ (encode i).length = 1 + i.mnemonic.format.nops ∧
    i.regOperands <+: i.operandBytes

theorem ldi (a imm : Byte) : Statement (.ldi a imm) := ⟨rfl, rfl, [imm], rfl⟩
theorem prn (a : Byte) : Statement (.prn a) := ⟨rfl, rfl, [], rfl⟩
theorem push (a : Byte) : Statement (.push a) := ⟨rfl, rfl, [], rfl⟩
theorem pop (a : Byte) : Statement (.pop a) := ⟨rfl, rfl, [], rfl⟩
theorem call (a : Byte) : Statement (.call a) := ⟨rfl, rfl, [], rfl⟩
theorem ret : Statement .ret := ⟨rfl, rfl, [], rfl⟩
theorem cmp (a b : Byte) : Statement (.cmp a b) := ⟨rfl, rfl, [], rfl⟩
theorem jmp (a : Byte) : Statement (.jmp a) := ⟨rfl, rfl, [], rfl⟩
theorem jeq (a : Byte) : Statement (.jeq a) := ⟨rfl, rfl, [], rfl⟩
theorem jne (a : Byte) : Statement (.jne a) := ⟨rfl, rfl, [], rfl⟩
theorem add (a b : Byte) : Statement (.add a b) := ⟨rfl, rfl, [], rfl⟩
theorem mul (a b : Byte) : Statement (.mul a b) := ⟨rfl, rfl, [], rfl⟩
theorem and (a b : Byte) : Statement (.and a b) := ⟨rfl, rfl, [], rfl⟩
theorem or (a b : Byte) : Statement (.or a b) := ⟨rfl, rfl, [], rfl⟩
theorem xor (a b : Byte) : Statement (.xor a b) := ⟨rfl, rfl, [], rfl⟩
theorem mod (a b : Byte) : Statement (.mod a b) := ⟨rfl, rfl, [], rfl⟩
theorem shl (a b : Byte) : Statement (.shl a b) := ⟨rfl, rfl, [], rfl⟩
theorem shr (a b : Byte) : Statement (.shr a b) := ⟨rfl, rfl, [], rfl⟩
theorem not (a : Byte) : Statement (.not a) := ⟨rfl, rfl, [], rfl⟩
theorem hlt : Statement .hlt := ⟨rfl, rfl, [], rfl⟩

end Sys2Proof.Laws.Encoding
end

