-- ==== Sys2Proof/Tests/Slice0.lean ====
section
/-!
SUPPORT. Tests on fixed values and witnesses. Every expected value is the spec's: spec/95_test_vectors.md (S1 to S10,
T1 to T8) or the worked example of the instruction's rule; the source stands before each group. A theorem
`witness_<Name>` shows that the hypotheses of the obligation `<Name>` can be met, each clause of it.
-/

namespace Sys2Proof.Tests

open Sys2Proof.Machine

/-! ### Well-formedness: one ill-formed term for each register operand of each format (30_encoding.md R65, R74) -/

theorem test_illFormed_R_a : (Instr.push 8).wellFormed = false := by decide
theorem test_illFormed_RR_a : (Instr.add 8 0).wellFormed = false := by decide
theorem test_illFormed_RR_b : (Instr.cmp 0 0xFF).wellFormed = false := by decide
theorem test_illFormed_RI_a : (Instr.ldi 8 9).wellFormed = false := by decide
theorem test_wellFormed_RI_imm : (Instr.ldi 7 0xFF).wellFormed = true := by decide
theorem test_wellFormed_Z : Instr.ret.wellFormed = true ∧ Instr.hlt.wellFormed = true := by decide

/-! ### Decoding: every constructor, bytes in binary as 30_encoding.md R66 writes them -/

theorem test_decode_ldi : decode [0b10000010, 0x00, 0x08] = .instr (.ldi 0 8) [] := by decide
theorem test_decode_prn : decode [0b01000111, 0x00] = .instr (.prn 0) [] := by decide
theorem test_decode_push : decode [0b01000101, 0x01] = .instr (.push 1) [] := by decide
theorem test_decode_pop : decode [0b01000110, 0x02] = .instr (.pop 2) [] := by decide
theorem test_decode_call : decode [0b01010000, 0x02] = .instr (.call 2) [] := by decide
theorem test_decode_ret : decode [0b00010001] = .instr .ret [] := by decide
theorem test_decode_cmp : decode [0b10100111, 0x00, 0x02] = .instr (.cmp 0 2) [] := by decide
theorem test_decode_jmp : decode [0b01010100, 0x03] = .instr (.jmp 3) [] := by decide
theorem test_decode_jeq : decode [0b01010101, 0x04] = .instr (.jeq 4) [] := by decide
theorem test_decode_jne : decode [0b01010110, 0x05] = .instr (.jne 5) [] := by decide
theorem test_decode_add : decode [0b10100000, 0x00, 0x01] = .instr (.add 0 1) [] := by decide
theorem test_decode_mul : decode [0b10100010, 0x02, 0x01] = .instr (.mul 2 1) [] := by decide
theorem test_decode_and : decode [0b10101000, 0x00, 0x01] = .instr (.and 0 1) [] := by decide
theorem test_decode_or : decode [0b10101010, 0x02, 0x01] = .instr (.or 2 1) [] := by decide
theorem test_decode_xor : decode [0b10101011, 0x01, 0x02] = .instr (.xor 1 2) [] := by decide
theorem test_decode_mod : decode [0b10100100, 0x02, 0x00] = .instr (.mod 2 0) [] := by decide
theorem test_decode_shl : decode [0b10101100, 0x02, 0x03] = .instr (.shl 2 3) [] := by decide
theorem test_decode_shr : decode [0b10101101, 0x01, 0x03] = .instr (.shr 1 3) [] := by decide
theorem test_decode_not : decode [0b01101001, 0x03] = .instr (.not 3) [] := by decide
theorem test_decode_hlt : decode [0b00000001] = .instr .hlt [] := by decide

/-- T1: the neighbours of the opcodes are illegal. -/
theorem test_decode_invalid : ([0x00, 0x02, 0x10, 0x12, 0x13, 0x44, 0x48, 0x51, 0x52, 0x53, 0x57, 0x58, 0x59, 0x5A, 0x65,
    0x66, 0x68, 0x6A, 0x81, 0x83, 0x84, 0xA1, 0xA3, 0xA5, 0xA6, 0xA9, 0xAE, 0xAF, 0xFE, 0xFF] : List Byte).all
    (fun op => (decodeOp op).isNone) = true := by decide

theorem test_decode_truncated : decode [0x82, 0x00] = .truncated := by decide

/-- The table's numbering: byte 1 is bits 15..8, byte 2 bits 23..16. -/
theorem test_decodeTableWord : decodeTableWord 24 0x080382 = some (.ldi 3 8) ∧ decodeTableWord 8 0x82 = some (.ldi 0 0) ∧
    decodeTableWord 8 0xFF = none := by decide

/-! ### Steps -/

/-- A started run with `bytes` in memory from `pc` on, `PC = pc`, and the listed registers set. -/
def started (pc : Byte) (bytes : List Byte) (regs : List (RegIdx × Byte)) : State :=
  regs.foldl (fun s r => s.writeReg r.1 r.2)
    { State.reset.startRun with pc := pc, mem := Memory.loadFrom pc bytes [] }

/-- What `f` reads from the next state of a step. -/
def afterStep {α : Type} (s : State) (f : State → α) : Option α :=
  match step s with
  | .next t => some (f t)
  | .fault _ => none
  | .refused _ => none

/-- The fault record, `RUN` and `PC`. -/
def faultView (s : State) : BitVec 3 × Byte × Byte × RunState × Byte :=
  (s.faultCause.code, s.faultPc, s.faultInfo, s.run, s.pc)

-- S1, T2
theorem test_ldi : afterStep (started 0 [0x82, 0x00, 0x08] []) (fun t => (t.readReg 0, t.pc, t.fl)) =
    some (8, 3, .none) := by decide
theorem test_ldi_wraps : afterStep (started 0xFE [0x82, 0x00, 0x08] []) (fun t => (t.readReg 0, t.pc)) =
    some (8, 1) := by decide
theorem test_prn : afterStep (started 3 [0x47, 0x00] [(0, 8)]) (fun t => (t.out, t.pc)) = some ([8], 5) := by decide
theorem test_prn_bad : afterStep (started 0 [0x47, 0x09] []) (fun t => (faultView t, t.out)) =
    some ((4, 0, 9, .faulted, 0), []) := by decide
-- T3
theorem test_push_wraps : afterStep (started 0 [0x45, 0x00] [(0, 0xAB), (7, 0)])
    (fun t => (t.sp, t.memRead 0xFF, t.pc)) = some (0xFF, 0xAB, 2) := by decide
theorem test_push_sp : afterStep (started 0 [0x45, 0x07] []) (fun t => (t.sp, t.memRead 0xF3)) =
    some (0xF3, 0xF3) := by decide
theorem test_pop : afterStep (started 0x14 [0x46, 0x01] [(7, 0x15)]) (fun t => (t.readReg 1, t.sp, t.pc)) =
    some (1, 0x16, 0x16) := by decide
theorem test_pop_sp : afterStep (started 0xF1 [0x46, 0x07, 0x20] [(7, 0xF3)]) (fun t => (t.sp, t.pc)) =
    some (0x21, 0xF3) := by decide
theorem test_call : afterStep (started 0x09 [0x50, 0x02] [(2, 0x0F)]) (fun t => (t.sp, t.memRead 0xF3, t.pc)) =
    some (0xF3, 0x0B, 0x0F) := by decide
theorem test_call_sp : afterStep (started 0 [0x50, 0x07] []) (fun t => (t.sp, t.memRead 0xF3, t.pc)) =
    some (0xF3, 0x02, 0xF3) := by decide
theorem test_ret : afterStep (started 0xF2 [0x11, 0x0B] [(7, 0xF3)]) (fun t => (t.pc, t.sp)) =
    some (0x0B, 0xF4) := by decide
theorem test_ret_wraps : afterStep (started 0xFE [0x11, 0x33] [(7, 0xFF)]) (fun t => (t.pc, t.sp)) =
    some (0x33, 0x00) := by decide
-- T4
theorem test_cmp_greater : afterStep (started 0 [0xA7, 0x00, 0x01] [(0, 0x80), (1, 0x7F)]) (fun t => (t.fl.bits, t.pc)) =
    some (0b010, 3) := by decide
theorem test_cmp_less : afterStep (started 0 [0xA7, 0x00, 0x01] [(1, 0xFF)]) (fun t => (t.fl.bits, t.pc)) =
    some (0b100, 3) := by decide
theorem test_jmp : afterStep (started 0x20 [0x54, 0x03] [(3, 0x0C)]) (fun t => t.pc) = some 0x0C := by decide
theorem test_jeq_equal : afterStep { started 3 [0x55, 0x00] [(0, 8)] with fl := .equal } (fun t => (t.pc, t.fl)) =
    some (8, .equal) := by decide
theorem test_jeq_none : afterStep (started 0x10 [0x55, 0x02] [(2, 0x40)]) (fun t => t.pc) = some 0x12 := by decide
theorem test_jne_none : afterStep (started 0x10 [0x56, 0x02] [(2, 0x40)]) (fun t => t.pc) = some 0x40 := by decide
theorem test_jne_equal : afterStep { started 0x12 [0x56, 0x03] [(3, 0x0C)] with fl := .equal } (fun t => t.pc) =
    some 0x14 := by decide
-- T5
theorem test_add_wraps : afterStep (started 0 [0xA0, 0x00, 0x01] [(0, 250), (1, 10)]) (fun t => (t.readReg 0, t.pc)) =
    some (4, 3) := by decide
theorem test_add_sp : afterStep (started 0 [0xA0, 0x07, 0x00] [(0, 4)]) (fun t => t.sp) = some 0xF8 := by decide
theorem test_mul_wraps : afterStep (started 0 [0xA2, 0x00, 0x01] [(0, 0xC8), (1, 3)]) (fun t => t.readReg 0) =
    some 0x58 := by decide
theorem test_and : afterStep (started 0 [0xA8, 0x00, 0x01] [(0, 0xF0), (1, 0x3C)]) (fun t => t.readReg 0) =
    some 0x30 := by decide
theorem test_or : afterStep (started 0 [0xAA, 0x02, 0x01] [(2, 0xF0), (1, 0x3C)]) (fun t => t.readReg 2) =
    some 0xFC := by decide
theorem test_xor : afterStep (started 0 [0xAB, 0x01, 0x02] [(1, 0x3C), (2, 0xFC)]) (fun t => t.readReg 1) =
    some 0xC0 := by decide
theorem test_not : afterStep (started 0x1B [0x69, 0x03] [(3, 3)]) (fun t => (t.readReg 3, t.pc)) =
    some (0xFC, 0x1D) := by decide
theorem test_mod : afterStep (started 0 [0xA4, 0x02, 0x00] [(2, 0xE0), (0, 0x30)]) (fun t => t.readReg 2) =
    some 0x20 := by decide
theorem test_mod_zero : afterStep (started 3 [0xA4, 0x00, 0x01] [(0, 9)]) (fun t => (faultView t, t.readReg 0)) =
    some ((3, 3, 0xA4, .faulted, 3), 9) := by decide
theorem test_shl : afterStep (started 0 [0xAC, 0x02, 0x03] [(2, 0xFC), (3, 3)]) (fun t => t.readReg 2) =
    some 0xE0 := by decide
theorem test_shl_by_8 : afterStep (started 0 [0xAC, 0x00, 0x01] [(0, 1), (1, 8)]) (fun t => t.readReg 0) =
    some 0 := by decide
theorem test_shr : afterStep (started 0 [0xAD, 0x01, 0x03] [(1, 0xC0), (3, 3)]) (fun t => t.readReg 1) =
    some 0x18 := by decide
theorem test_shr_by_255 : afterStep (started 0 [0xAD, 0x00, 0x01] [(0, 0xFF), (1, 0xFF)]) (fun t => t.readReg 0) =
    some 0 := by decide
-- T6
theorem test_hlt_wraps : afterStep (started 0xFF [0x01] []) (fun t => (t.run, t.pc, t.faultCause)) =
    some (.halted, 0, .none) := by decide
-- T7
theorem test_fault_opcode : afterStep (started 0 [0xFF, 0x09, 0x09] []) faultView =
    some (1, 0, 0xFF, .faulted, 0) := by decide
theorem test_fault_a_first : afterStep (started 0 [0xA4, 0x08, 0x09] []) faultView =
    some (4, 0, 8, .faulted, 0) := by decide
theorem test_fault_b_before_zero : afterStep (started 0 [0xA4, 0x00, 0x09] []) faultView =
    some (4, 0, 9, .faulted, 0) := by decide
-- P6: the byte pushed over the next instruction is the one fetched next
theorem test_self_modifying : afterStep (started 6 [0x45, 0x00, 0xFF] [(0, 1), (7, 9)])
    (fun t => (t.pc, afterStep t fun u => (u.run, u.pc))) = some (8, some (.halted, 9)) := by decide

/-- A word placed at the program counter runs as the first instruction after reset. -/
theorem test_withFetchWord : afterStep (State.reset.withFetchWord 24 0x2A0382) (fun t => (t.readReg 3, t.sp, t.pc, t.run)) =
    some (0x2A, 0xF4, 3, .running) := by decide

/-! ### Host, loader, sink: T8, 41_load_immediate_print.md R101, 30_encoding.md R72 -/

/-- What `f` reads from the next state of a host operation. -/
def afterHost {α : Type} (r : Result) (f : State → α) : Option α :=
  match r with
  | .next t => some (f t)
  | .fault _ => none
  | .refused _ => none

theorem test_load_twice : afterHost (hostLoad [0xAA, 0xBB, 0xCC] State.reset) (fun s =>
    afterHost (hostLoad [0x11] s) fun t => (t.memRead 0, t.memRead 1, t.memRead 2, t.memRead 3, t.run)) =
    some (some (0x11, 0xBB, 0xCC, 0, .idle)) := by decide
theorem test_start : afterHost (hostStart State.reset) (fun t => (t.sp, t.run, t.pc)) = some (0xF4, .running, 0) := by decide
theorem test_observe_idle_only : hostObserve State.reset = some State.reset ∧
    hostObserve State.reset.startRun = none := by decide
theorem test_parse : parseProgram ["# LDI R0,8".toList, "10000010 # LDI".toList, [], "00000000".toList, "00001000".toList] =
    some [0x82, 0x00, 0x08] := by decide
theorem test_parse_malformed : parseProgram ["1000001x".toList] = none ∧ parseProgram ["101".toList] = none := by decide
theorem test_decimal : decimalText 8 = ['8'] ∧ decimalText 255 = ['2', '5', '5'] ∧ decimalText 0 = ['0'] := by decide

/-! ### Witnesses for the hypotheses of the obligations -/

theorem witness_DecodeMatchesWholeByte : ∃ map : Mnemonic → Byte, Function.Injective map :=
  ⟨_, Config.opcodeMap_injective⟩

theorem witness_DecodeOfEncode : ∃ map : Mnemonic → Byte, Function.Injective map := ⟨_, Config.opcodeMap_injective⟩

theorem witness_EncodeOfDecode : decodeWith Config.opcodeMap [0xA7, 0x07, 0xFF, 0x01] = .instr (.cmp 7 0xFF) [0x01] := by
  decide

theorem witness_LengthFollowsOpcode : Mnemonic.hlt.format.nops ≤ ([] : List Byte).length ∧
    Mnemonic.ldi.format.nops ≤ ([7, 0xFF] : List Byte).length := by decide

theorem witness_RegisterOperandsByFormat : (Instr.prn 0xFF).mnemonic.format = .r ∧
    (Instr.add 0 0xFF).mnemonic.format = .rr ∧ (Instr.ldi 8 0).mnemonic.format = .ri ∧
    Instr.ret.mnemonic.format = .z := by decide

theorem witness_StepRunsDecoded : let s := started 0xFF [0x82, 0x00, 0x09] []
    s.run = .running ∧
      decode [s.memRead s.pc, s.memRead (s.pc + 1), s.memRead (s.pc + 2)] = .instr (.ldi 0 9) [] := by decide

theorem witness_IllegalOpcodeFaults : let s := started 0 [0xFF] []
    s.run = .running ∧ decodeOp (s.memRead s.pc) = none := by decide

theorem witness_NoStepOutsideRunning : State.reset.run ≠ .running ∧
    ({ State.reset with run := .halted } : State).run ≠ .running ∧
    (State.reset.enterFault .invalidOpcode 0).run ≠ .running := by decide

theorem witness_RunStateTransitions : (∃ t, step State.reset = .next t ∧ State.reset.run ≠ .running) ∧
    ∃ t, step (started 0 [0x01] []) = .next t ∧ (started 0 [0x01] []).run = .running :=
  ⟨⟨_, rfl, by decide⟩, ⟨_, rfl, by decide⟩⟩

theorem witness_FaultPriorityDecides :
    StepFaultOf (started 0 [0x00] []) .invalidOpcode 0x00 ∧ StepFaultOf (started 0 [0xA4, 0x08, 0x09] []) .invalidRegister 8 ∧
      StepFaultOf (started 0 [0xA4, 0x00, 0xFF] []) .invalidRegister 0xFF ∧
      StepFaultOf (started 0 [0xA4, 0x00, 0x01] []) .divisionByZero 0xA4 ∧ (started 0 [0x00] []).run = .running :=
  ⟨.inl (by decide), .inr ⟨_, rfl, .inl (by decide)⟩, .inr ⟨_, rfl, .inl (by decide)⟩,
    .inr ⟨_, rfl, .inr ⟨by decide, ⟨0, 1, by decide, by decide⟩, rfl, rfl⟩⟩, rfl⟩

theorem witness_FaultsArePrecise : ∃ t, step (started 0xFF [0x45, 0x08] []) = .next t ∧ t.run = .faulted ∧
    (started 0xFF [0x45, 0x08] []).run = .running := ⟨_, rfl, by decide, by decide⟩

theorem witness_StoredByteIsFetchedNext : let s := started 6 [0x45, 0x00, 0xFF] [(0, 1), (7, 9)]
    (0 : RegIdx) ≠ 7 ∧ spPush s.sp = s.pcPlus 2 := by decide

theorem witness_ZeroByteFaults : let s := started 3 [] []
    s.run = .running ∧ s.memRead s.pc = 0 := by decide

theorem witness_LdiLoadsImmediate : 7 < (8 : Byte).toNat ∧ (let s := started 0xFF [0x82, 0x00, 0x09] []
    s.run = .running ∧ s.memRead s.pc = 0x82) := by decide

theorem witness_PopLoadsTop : (6 : RegIdx) ≠ 7 ∧ (7 : RegIdx) = 7 := by decide

theorem witness_ShiftsByWholeByte : 8 ≤ ((started 0 [] [(1, 8)]).readReg 1).toNat := by decide

theorem witness_ModWritesRemainder : (started 0 [] [(1, 1)]).readReg 1 ≠ 0 := by decide

theorem witness_ModByZeroFaults : (started 0 [] []).readReg 1 = 0 ∧
    ∃ t, exec (.mod 0 1) (started 0 [] []) = .next t ∧ (started 0 [] []).faultCause ≠ .divisionByZero ∧
      t.faultCause = .divisionByZero := ⟨by decide, _, rfl, by decide, rfl⟩

theorem witness_BadRegisterFaults : (Instr.push 8).badRegister = some 8 ∧ (Instr.cmp 7 0xFF).badRegister = some 0xFF ∧
    (Instr.mod 8 9).badRegister = some 8 := by decide

theorem witness_WellFormedCompletes : (Instr.mod 7 1).wellFormed = true ∧
    ¬ DividesByZero (.mod 7 1) (started 0 [] [(1, 1)]) ∧ Instr.hlt.wellFormed = true ∧
    ¬ DividesByZero .hlt State.reset := by
  refine ⟨by decide, ?_, by decide, fun ⟨_, _, h, _⟩ => by cases h⟩
  rintro ⟨ra, rb, h, hz⟩
  have hb : rb = 1 := (regByte_injective (r := 1) (Instr.mod.inj h).2).symm
  subst hb
  exact absurd hz (by decide)

theorem witness_FlagsWrittenOnlyByCmp : ∃ t, exec (.add 0 1) State.reset = .next t ∧ ∀ a b, Instr.add 0 1 ≠ .cmp a b :=
  ⟨_, rfl, fun _ _ h => by cases h⟩

/-- The first clause: a CMP of two legal indices, the highest among them. -/
theorem witness_FlagsReadOnlyByJeqJne_cmp : (∃ t, exec (.cmp 0 7) State.reset = .next t) ∧
    (∀ a, Instr.cmp 0 7 ≠ .jeq a ∧ Instr.cmp 0 7 ≠ .jne a) ∧
    ∃ ra rb, Instr.cmp 0 7 = .cmp (regByte ra) (regByte rb) :=
  ⟨⟨_, rfl⟩, fun _ => ⟨fun h => (by cases h), fun h => (by cases h)⟩, 0, 7, rfl⟩

/-- The second clause: a CMP whose second index is the first illegal one, which faults. -/
theorem witness_FlagsReadOnlyByJeqJne_other : (∃ t, exec (.cmp 0 8) State.reset = .next t) ∧
    (∀ a, Instr.cmp 0 8 ≠ .jeq a ∧ Instr.cmp 0 8 ≠ .jne a) ∧
    ∀ ra rb, Instr.cmp 0 8 ≠ .cmp (regByte ra) (regByte rb) :=
  ⟨⟨_, rfl⟩, fun _ => ⟨fun h => (by cases h), fun h => (by cases h)⟩, by decide⟩

theorem witness_MemoryWrittenOnlyByPushCall : ∃ t, exec (.call 7) State.reset = .next t := ⟨_, rfl⟩

theorem witness_OutputOnlyByPrn : ∃ t, exec (.prn 7) State.reset = .next t := ⟨_, rfl⟩

theorem witness_RegistersWrittenAsTabulated : ∃ t, exec (.pop 1) State.reset = .next t ∧
    regByte 0 ∉ (Instr.pop 1).writtenRegs := ⟨_, rfl, by decide⟩

theorem witness_SequentialPcAdvance : ∃ t, exec .hlt State.reset = .next t ∧ Instr.hlt.controlTransfer = false ∧
    Instr.hlt.wellFormed = true ∧ ¬ DividesByZero .hlt State.reset :=
  ⟨_, rfl, rfl, by decide, fun ⟨_, _, h, _⟩ => by cases h⟩

theorem witness_OutAndFaultRecordUnread : let s := started 0 [0x47, 0x00] []
    SameProgramView s { s with out := [1], faultPc := 9 } := by
  exact ⟨rfl, rfl, rfl, rfl, rfl⟩

theorem witness_PushThenPop : let s := started 0xFD [0x45, 0x01, 0x46, 0x02] []
    s.run = .running ∧ (1 : RegIdx) ≠ 7 ∧ (2 : RegIdx) ≠ 7 ∧ s.memRead s.pc = 0x45 ∧
      s.memRead (s.pcPlus 1) = regByte 1 ∧ s.memRead (s.pcPlus 2) = 0x46 ∧ s.memRead (s.pcPlus 3) = regByte 2 ∧
      spPush s.sp ≠ s.pcPlus 2 ∧ spPush s.sp ≠ s.pcPlus 3 := by decide

theorem witness_CallThenRet : ∃ t u : State, exec (.call (regByte 2)) State.reset = .next t ∧ u.sp = t.sp ∧
    u.memRead u.sp = t.memRead t.sp ∧ u ≠ t :=
  ⟨_, { State.reset.decSp.storeTop (State.reset.pcPlus 2) with pc := 0x40 }, exec_call .., rfl, rfl, by decide⟩

theorem witness_EndedRunNeverMoves : ({ State.reset with run := .halted } : State).ended = true ∧
    (State.reset.enterFault .invalidOpcode 0).ended = true := by decide

theorem witness_AluAsOneFunction : (0 : Byte) = 0 ∧ (1 : Byte) ≠ 0 ∧
    aluVal (some .add) (State.reset.readReg 0) (State.reset.readReg 1) = .value 0 ∧
    aluVal (some .cmp) (State.reset.readReg 0) (State.reset.readReg 1) = .flags .equal ∧
    aluVal (some .mod) (State.reset.readReg 0) (State.reset.readReg 1) = .fault .divisionByZero := by decide

theorem witness_AluErrorUnreachable : ∃ t, step (started 0 [0xA4, 0x00, 0x01] []) = .next t ∧
    (started 0 [0xA4, 0x00, 0x01] []).faultCause ≠ .invalidALUOperation := ⟨_, rfl, by decide⟩

theorem witness_CanonicalMemoryIsDetermined : Memory.wf (Memory.write [(0, 1)] 255 7) ∧ Memory.wf [(0, 1), (255, 7)] ∧
    ∀ a : Byte, Memory.read (Memory.write [(0, 1)] 255 7) a.toNat = Memory.read [(0, 1), (255, 7)] a.toNat :=
  ⟨by decide, by decide, fun _ => rfl⟩

theorem started_inv : Inv State.reset.startRun :=
  ⟨by decide, fun h => (by cases h), fun _ => ⟨rfl, rfl, rfl⟩, fun h => (by cases h)⟩

theorem witness_StepKeepsInvariant : ∃ t, Inv State.reset.startRun ∧ step State.reset.startRun = .next t ∧
    t.run = .faulted := ⟨_, started_inv, rfl, rfl⟩

theorem witness_HostMovesKeepInvariant : ∃ t, Inv State.reset.startRun ∧ hostOp .reset State.reset.startRun = .next t :=
  ⟨_, started_inv, rfl⟩

theorem witness_LoadWritesImage : State.reset.run = .idle ∧ (List.replicate 256 (1 : Byte)).length ≤ 256 := by
  exact ⟨rfl, le_of_eq List.length_replicate⟩

theorem witness_HostRefusals : State.reset.startRun.run ≠ .idle ∧ State.reset.run = .idle ∧
    256 < (List.replicate 257 (1 : Byte)).length := by
  exact ⟨by decide, rfl, by rw [List.length_replicate]; decide⟩

theorem witness_StartBeginsRun : State.reset.run = .idle ∧ State.reset.startRun.run ≠ .idle := by decide

theorem witness_BootState : (List.replicate 256 (1 : Byte)).length ≤ 256 := le_of_eq List.length_replicate

end Sys2Proof.Tests
end

section
/-!
SUPPORT. What one execution and one step can do, said once (`Completes`, `exec_cases`, `step_cases`), the facts that
follow from it, and the statements of the family 10_state.md settled with them.
-/

namespace Sys2Proof.Machine

/-! ### What an instruction can do -/

/-- The state `t` in which the instruction completes from `s` without a fault. The ALU instructions that write a
register share one rule: `R[r]` is the first register operand and `R[q]` the last, the same one for NOT. -/
inductive Completes (s : State) : Instr → State → Prop
  | ldi (r : RegIdx) (imm : Byte) : Completes s (.ldi (regByte r) imm) ((s.writeReg r imm).advance 3)
  | prn (r : RegIdx) : Completes s (.prn (regByte r)) ((s.emit (s.readReg r)).advance 2)
  | push (r : RegIdx) : Completes s (.push (regByte r)) ((s.decSp.storeTop (s.decSp.readReg r)).advance 2)
  | pop (r : RegIdx) : Completes s (.pop (regByte r)) ((s.writeReg r s.loadTop).incSp.advance 2)
  | call (r : RegIdx) :
      Completes s (.call (regByte r)) ((s.decSp.storeTop (s.pcPlus 2)).setPc (s.decSp.readReg r))
  | ret : Completes s .ret (s.incSp.setPc s.loadTop)
  | cmp (r q : RegIdx) : Completes s (.cmp (regByte r) (regByte q))
      ({ s with fl := compareFlag (s.readReg r) (s.readReg q) }.advance 3)
  | jmp (r : RegIdx) : Completes s (.jmp (regByte r)) (s.setPc (s.readReg r))
  | jeq (r : RegIdx) :
      Completes s (.jeq (regByte r)) (s.setPc (if s.fl.isEqual then s.readReg r else s.pcPlus 2))
  | jne (r : RegIdx) :
      Completes s (.jne (regByte r)) (s.setPc (if s.fl.isEqual then s.pcPlus 2 else s.readReg r))
  | alu {i : Instr} {op : AluOp} {r q : RegIdx} {v : Byte} (hop : i.mnemonic.aluOp = some op)
      (hr : i.regOperands.head? = some (regByte r)) (hq : i.regOperands.getLast? = some (regByte q))
      (hv : aluVal (some op) (s.readReg r) (s.readReg q) = .value v) :
      Completes s i ((s.writeReg r v).advance (encode i).length)
  | hlt : Completes s .hlt ({ s with run := .halted }.advance 1)

/-- An ALU instruction runs the ALU on its first and its last register operand (spec/45_alu.md R149, R150). -/
theorem exec_of_aluOp {i : Instr} {op : AluOp} {r q : RegIdx} (hop : i.mnemonic.aluOp = some op)
    (hr : i.regOperands.head? = some (regByte r)) (hq : i.regOperands.getLast? = some (regByte q)) (s : State) :
    exec i s = aluStep i.mnemonic op (encode i).length r q s := by
  cases i with
  | ldi | prn | push | pop | call | ret | jmp | jeq | jne | hlt => cases hop
  | not a =>
    cases hop
    obtain rfl : a = regByte r := Option.some.inj hr
    obtain rfl : r = q := regByte_injective (Option.some.inj hq)
    exact withReg_regByte ..
  | cmp a b | add a b | mul a b | and a b | or a b | xor a b | mod a b | shl a b | shr a b =>
    cases hop
    obtain rfl : a = regByte r := Option.some.inj hr
    obtain rfl : b = regByte q := Option.some.inj hq
    exact withRegs_regByte ..

theorem Completes.exec_eq {s t : State} {i : Instr} (h : Completes s i t) : exec i s = .next t := by
  cases h with
  | ldi r imm => exact exec_ldi ..
  | prn r => exact exec_prn ..
  | push r => exact exec_push ..
  | pop r => exact exec_pop ..
  | call r => exact exec_call ..
  | ret => exact exec_ret s
  | cmp r q => exact exec_cmp ..
  | jmp r => exact exec_jmp ..
  | jeq r =>
    rw [exec_jeq]
    cases s.fl.isEqual <;> rfl
  | jne r =>
    rw [exec_jne]
    cases s.fl.isEqual <;> rfl
  | alu hop hr hq hv => exact (exec_of_aluOp hop hr hq s).trans (aluStep_value hv ..)
  | hlt => exact exec_hlt s

theorem exists_completes {i : Instr} {s : State} (hwf : i.wellFormed = true) (hdiv : ¬ DividesByZero i s) :
    ∃ t, Completes s i t := by
  rcases Instr.wellFormed_cases hwf with
    ⟨r, v, rfl⟩ | ⟨r, rfl⟩ | ⟨r, rfl⟩ | ⟨r, rfl⟩ | ⟨r, rfl⟩ | rfl | ⟨r, q, rfl⟩ | ⟨r, rfl⟩ | ⟨r, rfl⟩ | ⟨r, rfl⟩ |
    ⟨r, q, rfl⟩ | ⟨r, q, rfl⟩ | ⟨r, q, rfl⟩ | ⟨r, q, rfl⟩ | ⟨r, q, rfl⟩ | ⟨r, q, rfl⟩ | ⟨r, q, rfl⟩ | ⟨r, q, rfl⟩ |
    ⟨r, rfl⟩ | rfl
  · exact ⟨_, .ldi r v⟩
  · exact ⟨_, .prn r⟩
  · exact ⟨_, .push r⟩
  · exact ⟨_, .pop r⟩
  · exact ⟨_, .call r⟩
  · exact ⟨_, .ret⟩
  · exact ⟨_, .cmp r q⟩
  · exact ⟨_, .jmp r⟩
  · exact ⟨_, .jeq r⟩
  · exact ⟨_, .jne r⟩
  case _ | _ | _ | _ | _ => exact ⟨_, .alu rfl rfl rfl rfl⟩
  · have hne : s.readReg q ≠ 0 := fun h => hdiv ⟨r, q, rfl, h⟩
    exact ⟨_, .alu rfl rfl rfl (aluVal_mod hne)⟩
  case _ | _ => exact ⟨_, .alu rfl rfl rfl rfl⟩
  · exact ⟨_, .alu (r := r) (q := r) rfl rfl rfl rfl⟩
  · exact ⟨_, .hlt⟩

/-- The first bad byte of a one-register operand list is the one `withReg` raises. -/
theorem withReg_firstBad {a b : Byte} (h : [a].find? (fun x => decide (7 < x.toNat)) = some b) (s : State)
    (body : RegIdx → Result) : withReg a s body = raise .invalidRegister b s := by
  obtain rfl : b = a := List.mem_singleton.mp (List.mem_of_find?_eq_some h)
  exact withReg_bad (by simpa using List.find?_some h) s body

/-- The first bad byte of a two-register operand list, `a` before `b`, is the one `withRegs` raises. -/
theorem withRegs_firstBad {a b c : Byte} (h : [a, b].find? (fun x => decide (7 < x.toNat)) = some c) (s : State)
    (body : RegIdx → RegIdx → Result) : withRegs a b s body = raise .invalidRegister c s := by
  by_cases ha : 7 < a.toNat
  · obtain rfl : a = c := by simpa [ha] using h
    exact withReg_bad ha s _
  · obtain ⟨r, rfl⟩ := exists_regByte (b := a) (by omega)
    have hb : [b].find? (fun x => decide (7 < x.toNat)) = some c := by simpa [List.find?_cons, ha] using h
    exact (withReg_regByte ..).trans (withReg_firstBad hb s _)

/-- The first register byte above 7 is raised in place of the instruction (spec/40_fetch_decode_execute.md R82). -/
theorem exec_of_badRegister {i : Instr} {b : Byte} (h : i.badRegister = some b) (s : State) :
    exec i s = raise .invalidRegister b s := by
  cases i with
  | ret | hlt => cases h
  | ldi | prn | push | pop | call | jmp | jeq | jne | not => exact withReg_firstBad h s _
  | cmp | add | mul | and | or | xor | mod | shl | shr => exact withRegs_firstBad h s _

theorem exec_of_faultOf {i : Instr} {s : State} {c : FaultCause} {info : Byte} (h : FaultOf i s c info) :
    exec i s = raise c info s := by
  rcases h with ⟨hbad, rfl⟩ | ⟨-, ⟨r, q, rfl, hzero⟩, rfl, rfl⟩
  · exact exec_of_badRegister hbad s
  · exact exec_mod_zero s r q hzero

/-- What executing an instruction can do: enter the fault that the order of checks decides, or complete
(spec/40_fetch_decode_execute.md R82, R83). -/
theorem exec_cases (i : Instr) (s : State) :
    (∃ c info, FaultOf i s c info ∧ exec i s = raise c info s) ∨ ∃ t, Completes s i t ∧ exec i s = .next t := by
  rcases Instr.badRegister_cases i with ⟨b, hbad, -, -⟩ | ⟨hgood, hwf⟩
  · exact .inl ⟨_, _, .inl ⟨hbad, rfl⟩, exec_of_badRegister hbad s⟩
  · by_cases hdiv : DividesByZero i s
    · have hf : FaultOf i s .divisionByZero 0xA4 := .inr ⟨hgood, hdiv, rfl, rfl⟩
      exact .inl ⟨_, _, hf, exec_of_faultOf hf⟩
    · obtain ⟨t, ht⟩ := exists_completes hwf hdiv
      exact .inr ⟨t, ht, ht.exec_eq⟩

/-- `exec_cases` for an execution that is known to answer `t`. -/
theorem exec_next_cases {i : Instr} {s t : State} (h : exec i s = .next t) :
    (∃ c info, FaultOf i s c info ∧ t = s.enterFault c info) ∨ Completes s i t := by
  rcases exec_cases i s with ⟨c, info, hf, he⟩ | ⟨u, hu, he⟩
  · exact .inl ⟨c, info, hf, Host.Outcome.next.inj (h.symm.trans he)⟩
  · obtain rfl : t = u := Host.Outcome.next.inj (h.symm.trans he)
    exact .inr hu

/-! ### What a completed instruction changes, field by field -/

section
variable {s t : State} {i : Instr}

theorem Completes.sameFaultRecord (h : Completes s i t) : SameFaultRecord s t := by
  cases h <;> exact ⟨rfl, rfl, rfl⟩

theorem Completes.run_eq (h : Completes s i t) : t.run = if i = .hlt then .halted else s.run := by
  cases h with
  | alu hop =>
    have hne : i ≠ .hlt := by rintro rfl; cases hop
    exact (if_neg hne).symm
  | _ => rfl

theorem Completes.fl_eq (h : Completes s i t) (hcmp : ∀ r q, i ≠ .cmp (regByte r) (regByte q)) : t.fl = s.fl := by
  cases h with
  | cmp r q => exact absurd rfl (hcmp r q)
  | _ => rfl

/-- Only PUSH and CALL write memory, one cell, the one below the stack pointer (spec/42_stack.md R110). -/
theorem Completes.mem_cases (h : Completes s i t) :
    t.mem = s.mem ∨
      (∃ r, i = .push (regByte r) ∨ i = .call (regByte r)) ∧ ∃ v, t.mem = (s.memWrite (spPush s.sp) v).mem := by
  cases h with
  | push r => exact .inr ⟨⟨r, .inl rfl⟩, s.decSp.readReg r, by simp⟩
  | call r => exact .inr ⟨⟨r, .inr rfl⟩, s.pcPlus 2, by simp⟩
  | _ => exact .inl rfl

theorem Completes.out_cases (h : Completes s i t) :
    (t.out = s.out ∧ ∀ r, i ≠ .prn (regByte r)) ∨ ∃ r, i = .prn (regByte r) ∧ t.out = s.out ++ [s.readReg r] := by
  cases h with
  | prn r => exact .inr ⟨r, rfl, rfl⟩
  | alu hop => exact .inl ⟨rfl, by rintro r rfl; cases hop⟩
  | _ => exact .inl ⟨rfl, fun _ => nofun⟩

theorem Completes.pc_eq (h : Completes s i t) (hseq : i.controlTransfer = false) :
    t.pc = s.pcPlus (encode i).length := by
  cases h with
  | call | ret | jmp | jeq | jne => cases hseq
  | _ => rfl

theorem Completes.wf_mem (h : Completes s i t) (hwf : Memory.wf s.mem) : Memory.wf t.mem := by
  rcases h.mem_cases with hmem | ⟨-, v, hmem⟩ <;> rw [hmem]
  · exact hwf
  · exact State.wf_memWrite hwf ..

/-- A completed instruction other than CMP, JEQ and JNE neither reads nor writes `FL`. -/
theorem Completes.with_fl (h : Completes s i t) (f : Flag) (hjump : ∀ a, i ≠ .jeq a ∧ i ≠ .jne a)
    (hcmp : ∀ r q, i ≠ .cmp (regByte r) (regByte q)) : Completes { s with fl := f } i { t with fl := f } := by
  cases h with
  | cmp r q => exact absurd rfl (hcmp r q)
  | jeq r => exact absurd rfl (hjump _).1
  | jne r => exact absurd rfl (hjump _).2
  | ldi r imm => exact .ldi r imm
  | prn r => exact .prn r
  | push r => exact .push r
  | pop r => exact .pop r
  | call r => exact .call r
  | ret => exact .ret
  | jmp r => exact .jmp r
  | alu hop hr hq hv => exact .alu hop hr hq hv
  | hlt => exact .hlt

end

/-! ### What a step can do -/

section
variable {s : State}

theorem step_of_fetched {i : Instr} (hrun : s.run = .running) (hi : s.fetchDecode = some i) : step s = exec i s := by
  rw [step_running s hrun, hi]

theorem step_of_stepFaultOf {c : FaultCause} {info : Byte} (hrun : s.run = .running) (h : StepFaultOf s c info) :
    step s = raise c info s := by
  rcases h with ⟨hnone, rfl, rfl⟩ | ⟨i, hi, hf⟩
  · rw [step_running s hrun, hnone]
  · exact (step_of_fetched hrun hi).trans (exec_of_faultOf hf)

/-- What a step while RUNNING can do: enter the fault that the order of checks decides, or complete the fetched
instruction (spec/40_fetch_decode_execute.md R80, R82). -/
theorem step_cases (hrun : s.run = .running) :
    (∃ c info, StepFaultOf s c info ∧ step s = raise c info s) ∨
      ∃ i t, s.fetchDecode = some i ∧ Completes s i t ∧ step s = .next t := by
  cases hi : s.fetchDecode with
  | none =>
    have hf : StepFaultOf s .invalidOpcode (s.memRead s.pc) := .inl ⟨hi, rfl, rfl⟩
    exact .inl ⟨_, _, hf, step_of_stepFaultOf hrun hf⟩
  | some i =>
    rcases exec_cases i s with ⟨c, info, hf, he⟩ | ⟨t, ht, he⟩
    · exact .inl ⟨c, info, .inr ⟨i, hi, hf⟩, (step_of_fetched hrun hi).trans he⟩
    · exact .inr ⟨i, t, rfl, ht, (step_of_fetched hrun hi).trans he⟩

/-- `step_cases` for a step that is known to answer `t`. -/
theorem step_next_cases {t : State} (hrun : s.run = .running) (h : step s = .next t) :
    (∃ c info, StepFaultOf s c info ∧ t = s.enterFault c info) ∨
      ∃ i, s.fetchDecode = some i ∧ Completes s i t := by
  rcases step_cases hrun with ⟨c, info, hf, he⟩ | ⟨i, u, hi, hu, he⟩
  · exact .inl ⟨c, info, hf, Host.Outcome.next.inj (h.symm.trans he)⟩
  · obtain rfl : t = u := Host.Outcome.next.inj (h.symm.trans he)
    exact .inr ⟨i, hi, hu⟩

end

/-! ### The run state -/

/-- Settles O11: the step has no other arm outside RUNNING. -/
theorem noStepOutsideRunning : Obligations.NoStepOutsideRunning := fun s h => step_not_running s h

theorem run_succ_of_step {M : Host.Core} {s s' : M.State} (h : M.step s = .next s') (k : Nat) :
    M.run (k + 1) s = M.run k s' := by
  rw [Host.Core.run, h]

/-- Settles O44, by induction on the number of steps: an ended run is not RUNNING, so each step holds the state. -/
theorem endedRunNeverMoves : Obligations.EndedRunNeverMoves := by
  intro k s hend
  have hrun : s.run ≠ .running := by
    intro h
    simp [State.ended, h] at hend
  have hstep : Sys2Proof.core.step s = .next s := step_not_running s hrun
  induction k with
  | zero => rfl
  | succ k ih => exact (run_succ_of_step hstep k).trans ih

/-- Settles O13: a faulting step enters FAULTED, and a completed instruction enters HALTED when it is HLT and stays
RUNNING otherwise. -/
theorem runStateTransitions : Obligations.RunStateTransitions := by
  intro s t hstep
  constructor
  · intro hrun
    rw [Host.Outcome.next.inj (hstep.symm.trans (step_not_running s hrun))]
  · intro hrun
    rcases step_next_cases hrun hstep with ⟨c, info, hf, rfl⟩ | ⟨i, hi, ht⟩
    · have hnotHlt : s.fetchDecode ≠ some .hlt := by
        intro hi
        have hhlt := (step_of_fetched hrun hi).trans (exec_hlt s)
        cases congrArg State.run (Host.Outcome.next.inj (hstep.symm.trans hhlt))
      exact ⟨nofun, iff_of_false nofun hnotHlt, iff_of_true rfl ⟨c, info, hf⟩⟩
    · have hnoFault : ¬ ∃ c info, StepFaultOf s c info := by
        rintro ⟨c, info, hf⟩
        have hfaulted : t.run = .faulted :=
          congrArg State.run (Host.Outcome.next.inj (hstep.symm.trans (step_of_stepFaultOf hrun hf)))
        rw [ht.run_eq, hrun] at hfaulted
        split at hfaulted <;> cases hfaulted
      rw [hi, ht.run_eq, hrun]
      by_cases hhlt : i = .hlt <;> simp [hhlt, hnoFault]

/-- Settles O34: what neither has a bad register nor divides by zero completes. -/
theorem wellFormedCompletes : Obligations.WellFormedCompletes := by
  intro i s hwf hdiv
  obtain ⟨t, ht⟩ := exists_completes hwf hdiv
  exact ⟨t, ht.exec_eq, ht.sameFaultRecord, ht.run_eq⟩

/-! ### FL, memory, OUT and PC -/

/-- Settles O35: fault entry keeps `FL`, and so does every completed instruction other than CMP. -/
theorem flagsWrittenOnlyByCmp : Obligations.FlagsWrittenOnlyByCmp := by
  intro i s t h hcmp
  rcases exec_next_cases h with ⟨c, info, -, rfl⟩ | ht
  · rfl
  · exact ht.fl_eq fun _ _ => hcmp _ _

/-- Settles O36: CMP overwrites `FL`; of the others neither the fault nor the completion looks at it. -/
theorem flagsReadOnlyByJeqJne : Obligations.FlagsReadOnlyByJeqJne := by
  intro i s t f h hjump
  constructor
  · rintro ⟨r, q, rfl⟩
    rw [exec_cmp] at h ⊢
    exact h
  · intro hcmp
    rcases exec_next_cases h with ⟨c, info, hf, rfl⟩ | ht
    · have hf' : FaultOf i { s with fl := f } c info := hf
      exact exec_of_faultOf hf'
    · exact (ht.with_fl f hjump hcmp).exec_eq

/-- Settles O37: fault entry keeps memory, and a completed PUSH or CALL writes the one cell below the stack pointer. -/
theorem memoryWrittenOnlyByPushCall : Obligations.MemoryWrittenOnlyByPushCall := by
  intro i s t h
  rcases exec_next_cases h with ⟨c, info, -, rfl⟩ | ht
  · exact .inl rfl
  · refine ht.mem_cases.imp_right fun ⟨hi, v, hmem⟩ => ⟨hi, fun x hx => ?_⟩
    calc t.memRead x = (s.memWrite (spPush s.sp) v).memRead x := congrArg (Memory.read · x.toNat) hmem
      _ = s.memRead x := by rw [State.memRead_memWrite, if_neg hx]

/-- Settles O38: a PRN of a legal register completes; of the others both fault entry and completion keep `OUT`. -/
theorem outputOnlyByPrn : Obligations.OutputOnlyByPrn := by
  intro i s t h
  by_cases hprn : ∃ r, i = .prn (regByte r)
  · obtain ⟨r, rfl⟩ := hprn
    exact .inr ⟨r, rfl, congrArg State.out (Host.Outcome.next.inj (h.symm.trans (exec_prn s r)))⟩
  · rcases exec_next_cases h with ⟨c, info, -, rfl⟩ | ht
    · exact .inl ⟨rfl, not_exists.mp hprn⟩
    · exact ht.out_cases

/-- Settles O40: the completed instruction moves `PC` by the length of its encoding. -/
theorem sequentialPcAdvance : Obligations.SequentialPcAdvance := by
  intro i s t h hseq hwf hdiv
  obtain ⟨u, hu⟩ := exists_completes hwf hdiv
  obtain rfl : t = u := Host.Outcome.next.inj (h.symm.trans hu.exec_eq)
  rw [PcAdvances, hu.pc_eq hseq, State.pcPlus_toNat]

/-! ### OUT and the fault record are not read -/

/-- `s` with the output `o` and the fault record of `u`. -/
def State.withUnread (s u : State) (o : List Byte) : State :=
  { s with out := o, faultCause := u.faultCause, faultPc := u.faultPc, faultInfo := u.faultInfo }

theorem State.withUnread_sameProgramView (s u : State) (o : List Byte) : SameProgramView s (s.withUnread u o) :=
  ⟨rfl, rfl, rfl, rfl, rfl⟩

theorem SameProgramView.eq_withUnread {s s' : State} (h : SameProgramView s s') : s' = s.withUnread s' s'.out := by
  obtain ⟨hregs, hpc, hfl, hrun, hmem⟩ := h
  simp only [State.withUnread, ← hregs, ← hpc, ← hfl, ← hrun, ← hmem]

/-- A completed instruction appends the same bytes to `OUT` whatever `OUT` and the fault record are, and does the same
to everything else. -/
theorem Completes.withUnread {s t : State} {i : Instr} (h : Completes s i t) (u : State) (o : List Byte) :
    ∃ emitted, t.out = s.out ++ emitted ∧
      Completes (s.withUnread u o) i (t.withUnread u (o ++ emitted)) := by
  cases h with
  | prn r => exact ⟨[s.readReg r], rfl, .prn r⟩
  | _ =>
    refine ⟨[], (List.append_nil _).symm, ?_⟩
    rw [List.append_nil]
    constructor <;> assumption

/-- Settles O41: the fault that is decided, and the completion of an instruction, are the same with another output and
fault record. -/
theorem outAndFaultRecordUnread : Obligations.OutAndFaultRecordUnread := by
  intro s s' hview
  rw [hview.eq_withUnread]
  generalize hu : s' = u, s'.out = o
  by_cases hrun : s.run = .running
  · have hrun' : (s.withUnread u o).run = .running := hrun
    rcases step_cases hrun with ⟨c, info, hf, he⟩ | ⟨i, t, hi, ht, he⟩
    · have hf' : StepFaultOf (s.withUnread u o) c info := hf
      exact ⟨_, _, [], he, step_of_stepFaultOf hrun' hf', ⟨rfl, rfl, rfl, rfl, rfl⟩,
        (List.append_nil _).symm, (List.append_nil _).symm⟩
    · obtain ⟨emitted, hout, ht'⟩ := ht.withUnread u o
      have hi' : (s.withUnread u o).fetchDecode = some i := hi
      exact ⟨t, _, emitted, he, (step_of_fetched hrun' hi').trans ht'.exec_eq, t.withUnread_sameProgramView u _,
        hout, rfl⟩
  · exact ⟨s, _, [], step_not_running s hrun, step_not_running _ hrun, s.withUnread_sameProgramView u o,
      (List.append_nil _).symm, (List.append_nil _).symm⟩

/-! ### Canonical memory -/

/-- In a memory whose addresses rise, a listed cell is what a read at its address gives. -/
theorem Memory.read_of_mem {c : Host.Cell} : ∀ {m : Memory}, m.Pairwise (fun c d => c.1 < d.1) → c ∈ m →
    Memory.read m c.1 = c.2
  | d :: m, hp, hc => by
    obtain ⟨hlt, hp'⟩ := List.pairwise_cons.mp hp
    rw [Memory.read_cons]
    rcases List.mem_cons.mp hc with rfl | hc
    · exact if_pos rfl
    · rw [if_neg (hlt c hc).ne, Memory.read_of_mem hp' hc]

/-- An address that reads as anything but an unlisted cell is listed. -/
theorem Memory.mem_of_read_ne {x : Nat} : ∀ {m : Memory}, Memory.read m x ≠ Memory.unlisted →
    (x, Memory.read m x) ∈ m
  | [], h => absurd rfl h
  | d :: m, h => by
    rw [Memory.read_cons] at h ⊢
    by_cases hd : d.1 = x
    · subst hd
      simp
    · rw [if_neg hd] at h ⊢
      exact List.mem_cons_of_mem _ (Memory.mem_of_read_ne h)

/-- A canonical memory lists nothing that a memory with the same reads does not list. -/
theorem Memory.mem_of_same_reads {m m' : Memory} (hwf : Memory.wf m)
    (hread : ∀ a : Byte, Memory.read m a.toNat = Memory.read m' a.toNat) {c : Host.Cell} (hc : c ∈ m) : c ∈ m' := by
  obtain ⟨haddr, hval⟩ := hwf.2 c hc
  have hsame : Memory.read m' c.1 = c.2 := by
    have h : Memory.read m c.1 = Memory.read m' c.1 := hread (BitVec.ofNatLT c.1 haddr)
    exact h.symm.trans (Memory.read_of_mem hwf.1 hc)
  have hmem := Memory.mem_of_read_ne (hsame.trans_ne hval)
  rwa [hsame] at hmem

/-- Settles O49: both lists have the same members in the same strictly rising order. -/
theorem canonicalMemoryIsDetermined : Obligations.CanonicalMemoryIsDetermined := by
  intro m m' hwf hwf' hread
  have : Std.Irrefl fun c d : Host.Cell => c.1 < d.1 := ⟨fun c => lt_irrefl c.1⟩
  have : Std.Antisymm fun c d : Host.Cell => c.1 < d.1 := ⟨fun _ _ h h' => absurd h' h.asymm⟩
  exact List.Pairwise.eq_of_mem_iff hwf.1 hwf'.1 fun c =>
    ⟨Memory.mem_of_same_reads hwf hread, Memory.mem_of_same_reads hwf' fun a => (hread a).symm⟩

/-! ### The invariant -/

/-- Settles O51: reset is IDLE with an empty record and an empty memory list (spec/10_state.md R30). -/
theorem resetMeetsInvariant : Obligations.ResetMeetsInvariant where
  memory := State.reset_memory_wf
  idle _ := rfl
  noFault _ := ⟨rfl, rfl, rfl⟩
  fault := nofun

/-- Entering the fault that a step decides establishes the invariant: the record is that of the instruction at `PC`,
which fault entry leaves in place (spec/60_exceptions.md R178). -/
theorem Inv.enterFault {s : State} {c : FaultCause} {info : Byte} (hinv : Inv s) (hf : StepFaultOf s c info) :
    Inv (s.enterFault c info) where
  memory := hinv.memory
  idle := nofun
  noFault h := absurd rfl h
  fault _ := ⟨rfl, hf⟩

theorem Inv.completes {s t : State} {i : Instr} (hinv : Inv s) (hrun : s.run = .running) (h : Completes s i t) :
    Inv t := by
  obtain ⟨hcause, hpc, hinfo⟩ := h.sameFaultRecord
  have hrun' : t.run = .halted ∨ t.run = .running := by
    rw [h.run_eq, hrun]
    split <;> simp
  have hnotIdle : t.run ≠ .idle := by rcases hrun' with h | h <;> simp [h]
  have hnotFaulted : t.run ≠ .faulted := by rcases hrun' with h | h <;> simp [h]
  exact {
    memory := h.wf_mem hinv.memory
    idle := fun hidle => absurd hidle hnotIdle
    noFault := fun _ => by
      rw [hcause, hpc, hinfo]
      exact hinv.noFault (by simp [hrun])
    fault := fun hfaulted => absurd hfaulted hnotFaulted }

/-- Settles O52: a step holds the state, enters the fault that it decides, or completes an instruction. -/
theorem stepKeepsInvariant : Obligations.StepKeepsInvariant := by
  intro s t hinv hstep
  by_cases hrun : s.run = .running
  · rcases step_next_cases hrun hstep with ⟨c, info, hf, rfl⟩ | ⟨i, -, ht⟩
    · exact hinv.enterFault hf
    · exact hinv.completes hrun ht
  · obtain rfl : t = s := Host.Outcome.next.inj (hstep.symm.trans (step_not_running s hrun))
    exact hinv

/-! ### Encodings and reset -/

/-- Settles O50, by evaluating the thirteen codes. -/
theorem statusEncodings : Obligations.StatusEncodings := by
  unfold Obligations.StatusEncodings
  decide

/-- Settles O54: `hostReset` answers `State.reset` from every state, and each of its fields is the one stated. -/
theorem resetClearsEverything : Obligations.ResetClearsEverything := by
  intro s
  have hregs : ∀ r, State.reset.readReg r = 0 := by decide
  exact ⟨State.reset, rfl, rfl, hregs, rfl, rfl, rfl, rfl, rfl, rfl, State.reset_memRead, rfl⟩

end Sys2Proof.Machine
end

section
/-!
SUPPORT. What the host's moves answer, what a loaded image reads as, how fetch sees a byte just stored, and the
statements of the family 20_memory.md settled with them.
-/

namespace Sys2Proof.Machine

/-! ### A read after a write -/

theorem State.memRead_memWrite_same (s : State) (a v : Byte) : (s.memWrite a v).memRead a = v := by
  rw [State.memRead_memWrite, if_pos rfl]

theorem State.memRead_memWrite_ne (s : State) {a x : Byte} (v : Byte) (h : x ≠ a) :
    (s.memWrite a v).memRead x = s.memRead x := by
  rw [State.memRead_memWrite, if_neg h]

/-- Settles O48, by the read-after-write law of memory; `memWrite` touches no other field. -/
theorem readAfterWrite : Obligations.ReadAfterWrite := fun s addr v =>
  ⟨s.memRead_memWrite_same addr v, fun _ hx => s.memRead_memWrite_ne v hx, rfl⟩

/-! ### Fetching a stored byte -/

/-- Fetch looks the opcode byte up and builds the instruction from the two bytes after it
(spec/40_fetch_decode_execute.md R80, R81). -/
theorem State.fetchDecode_eq_map (s : State) :
    s.fetchDecode = (decodeOp (s.memRead s.pc)).map fun d =>
      d.mnemonic.build (s.memRead (s.pcPlus 1)) (s.memRead (s.pcPlus 2)) := by
  unfold State.fetchDecode
  cases decodeOp (s.memRead s.pc) <;> rfl

theorem State.pcPlus_advance (s : State) (n k : Nat) : (s.advance n).pcPlus k = s.pcPlus (n + k) := by
  simp only [State.pcPlus, State.advance_pc, BitVec.ofNat_add, BitVec.add_assoc]

/-- The addresses behind `PC` are distinct up to the size of memory (spec/10_state.md R23). -/
theorem State.pcPlus_ne (s : State) {n k : Nat} (hlt : n < k) (hk : k < n + Config.memSize) :
    s.pcPlus k ≠ s.pcPlus n := by
  intro h
  have hnat := congrArg BitVec.toNat h
  rw [State.pcPlus_toNat, State.pcPlus_toNat] at hnat
  have hsize : Config.memSize = 256 := rfl
  omega

/-- Where the cell below the stack pointer is the next opcode, a completed PUSH of a register other than `R[7]` has
written exactly that cell, with the register's value (spec/42_stack.md R110). -/
theorem memRead_push {s : State} {r : RegIdx} (hr : r ≠ 7) (hsp : spPush s.sp = s.pcPlus 2) (x : Byte) :
    ((s.decSp.storeTop (s.decSp.readReg r)).advance 2).memRead x =
      if x = s.pcPlus 2 then s.readReg r else s.memRead x := by
  have hval : s.decSp.readReg r = s.readReg r := State.readReg_writeReg_ne s _ hr
  rw [State.advance_memRead, State.memRead_storeTop, State.sp_decSp, hsp, hval, State.decSp_memRead]

/-- Settles O16: the byte at the new `PC` is the one stored, and the two operand bytes after it are those that stood
there before. -/
theorem storedByteIsFetchedNext : Obligations.StoredByteIsFetchedNext := by
  intro s r hr hsp
  refine ⟨_, exec_push s r, ?_⟩
  generalize ht : (s.decSp.storeTop (s.decSp.readReg r)).advance 2 = t
  have hread : ∀ x, t.memRead x = if x = s.pcPlus 2 then s.readReg r else s.memRead x :=
    ht ▸ memRead_push hr hsp
  have hpc : t.pc = s.pcPlus 2 := ht ▸ rfl
  have hnext : ∀ k, t.pcPlus k = s.pcPlus (2 + k) := ht ▸ State.pcPlus_advance _ 2
  have hopcode : t.memRead t.pc = s.readReg r := by rw [hread, if_pos hpc]
  have hoperand : ∀ k, 0 < k → k < 256 → t.memRead (t.pcPlus k) = s.memRead (s.pcPlus (2 + k)) := by
    intro k hpos hk
    rw [hnext, hread, if_neg (s.pcPlus_ne (Nat.lt_add_of_pos_right hpos) (Nat.add_lt_add_left hk 2))]
  refine ⟨hopcode, ?_⟩
  rw [State.fetchDecode_eq_map, hopcode, hoperand 1 (by decide) (by decide), hoperand 2 (by decide) (by decide)]

/-! ### What the host's moves answer -/

section
variable {s t : State} {image : List Byte}

theorem hostLoad_of_idle (hidle : s.run = .idle) (hlen : image.length ≤ 256) :
    hostLoad image s = .next { s with mem := Memory.loadFrom Config.loadBase image s.mem } :=
  (if_pos hidle).trans (if_pos hlen)

theorem hostLoad_of_tooLarge (hidle : s.run = .idle) (hlen : 256 < image.length) :
    hostLoad image s = .refused .programTooLarge :=
  (if_pos hidle).trans (if_neg (Nat.not_le_of_gt hlen))

theorem hostLoad_of_not_idle (h : s.run ≠ .idle) : hostLoad image s = .refused .hostOpOutsideIdle := if_neg h

theorem hostStart_of_idle (hidle : s.run = .idle) : hostStart s = .next s.startRun := if_pos hidle

theorem hostStart_of_not_idle (h : s.run ≠ .idle) : hostStart s = .refused .hostOpOutsideIdle := if_neg h

/-- A load that is accepted is one in IDLE of an image that fits (spec/20_memory.md R55, R56). -/
theorem hostLoad_eq_next (h : hostLoad image s = .next t) :
    s.run = .idle ∧ image.length ≤ 256 ∧ t = { s with mem := Memory.loadFrom Config.loadBase image s.mem } := by
  by_cases hidle : s.run = .idle
  · rcases Nat.lt_or_ge 256 image.length with hlen | hlen
    · cases h.symm.trans (hostLoad_of_tooLarge hidle hlen)
    · exact ⟨hidle, hlen, Host.Outcome.next.inj (h.symm.trans (hostLoad_of_idle hidle hlen))⟩
  · cases h.symm.trans (hostLoad_of_not_idle hidle)

/-- A start that is accepted is one in IDLE (spec/70_reset_and_hazards.md R204). -/
theorem hostStart_eq_next (h : hostStart s = .next t) : s.run = .idle ∧ t = s.startRun := by
  by_cases hidle : s.run = .idle
  · exact ⟨hidle, Host.Outcome.next.inj (h.symm.trans (hostStart_of_idle hidle))⟩
  · cases h.symm.trans (hostStart_of_not_idle hidle)

end

/-- Settles O56, by the branches of `hostLoad` and `hostStart` that refuse. -/
theorem hostRefusals : Obligations.HostRefusals := fun _ _ =>
  ⟨fun h => ⟨hostLoad_of_not_idle h, hostStart_of_not_idle h⟩, hostLoad_of_tooLarge⟩

/-! ### Loading an image -/

/-- An image that fits memory is read back at its distance from the base, wrap included, and the other cells keep their
bytes: no later byte of it comes round to an earlier one's cell (spec/20_memory.md R54). -/
theorem Memory.read_loadFrom (x : Byte) : ∀ (image : List Byte) (base : Byte) (m : Memory), image.length ≤ 256 →
    Memory.read (Memory.loadFrom base image m) x.toNat = image.getD (x - base).toNat (Memory.read m x.toNat)
  | [], _, _, _ => rfl
  | v :: rest, base, m, hlen => by
    have hrest : rest.length < 256 := hlen
    rw [Memory.loadFrom, Memory.read_loadFrom x rest (base + 1) _ hrest.le, Memory.read_write]
    by_cases hx : x.toNat = base.toNat
    · have hlast : (x - (base + 1)).toNat = 255 := by bv_omega
      have hfirst : (x - base).toNat = 0 := by bv_omega
      rw [if_pos hx, hlast, hfirst, List.getD_eq_default _ _ (Nat.le_of_lt_succ hrest), List.getD_cons_zero]
    · have hnext : (x - base).toNat = (x - (base + 1)).toNat + 1 := by bv_omega
      rw [if_neg hx, hnext, List.getD_cons_succ]

/-- Settles O55: an accepted load replaces memory alone, and the image is laid from address 0. -/
theorem loadWritesImage : Obligations.LoadWritesImage := by
  intro image s hidle hlen
  refine ⟨_, hostLoad_of_idle hidle hlen, rfl, fun x => ?_⟩
  have hread := Memory.read_loadFrom x image Config.loadBase s.mem hlen
  have hbase : x - Config.loadBase = x := BitVec.sub_zero x
  rwa [hbase] at hread

/-! ### The invariant -/

/-- In IDLE the invariant says nothing about memory but that it is canonical. -/
theorem Inv.with_mem {s : State} (hinv : Inv s) (hidle : s.run = .idle) {m : Memory} (hm : Memory.wf m) :
    Inv { s with mem := m } where
  memory := hm
  idle _ := congrArg (fun u : State => { u with mem := m }) (hinv.idle hidle)
  noFault := hinv.noFault
  fault hfaulted := by cases hidle.symm.trans hfaulted

theorem Inv.startRun {s : State} (hinv : Inv s) (hidle : s.run = .idle) : Inv s.startRun where
  memory := hinv.memory
  idle := nofun
  noFault _ := hinv.noFault (by simp [hidle])
  fault := nofun

/-- Settles O53: reset establishes the invariant, and load and start are accepted only in IDLE, where each keeps it. -/
theorem hostMovesKeepInvariant : Obligations.HostMovesKeepInvariant := by
  intro op s t hinv h
  cases op with
  | reset =>
    obtain rfl : State.reset = t := Host.Outcome.next.inj h
    exact resetMeetsInvariant
  | load image =>
    obtain ⟨hidle, -, rfl⟩ := hostLoad_eq_next h
    exact hinv.with_mem hidle (Memory.wf_loadFrom image _ hinv.memory)
  | start =>
    obtain ⟨hidle, rfl⟩ := hostStart_eq_next h
    exact hinv.startRun hidle

end Sys2Proof.Machine
end

section
/-!
SUPPORT. What the decoder can answer on a list of bytes, said once (`decodeWith_cases`), the value the loader reads
from a line of bits, and the statements of the family 30_encoding.md settled with them.
-/

namespace Sys2Proof

/-! ### Instructions and their operand bytes -/

theorem Format.nops_le_two (f : Format) : f.nops ≤ 2 := by cases f <;> decide

/-- A mnemonic with as many bytes as its format has operands is an instruction (spec/30_encoding.md R61, R64). -/
theorem Mnemonic.exists_instr (m : Mnemonic) :
    ∀ {ops : List Byte}, ops.length = m.format.nops → ∃ i : Instr, i.mnemonic = m ∧ i.operandBytes = ops
  | [], h => ⟨m.build 0 0, m.build_mnemonic 0 0, by rw [m.build_operandBytes, ← h]; rfl⟩
  | [a], h => ⟨m.build a 0, m.build_mnemonic a 0, by rw [m.build_operandBytes, ← h]; rfl⟩
  | [a, b], h => ⟨m.build a b, m.build_mnemonic a b, by rw [m.build_operandBytes, ← h]; rfl⟩
  | _ :: _ :: _ :: _, h => by
    have hle := m.format.nops_le_two
    simp only [← h, List.length_cons] at hle
    omega

/-- Enough bytes for the format of a mnemonic begin with the operand bytes of an instruction. -/
theorem Mnemonic.exists_instr_append (m : Mnemonic) {bytes : List Byte} (hlen : m.format.nops ≤ bytes.length) :
    ∃ (i : Instr) (rest : List Byte), i.mnemonic = m ∧ bytes = i.operandBytes ++ rest := by
  obtain ⟨i, hi, hops⟩ := m.exists_instr (List.length_take_of_le hlen)
  exact ⟨i, bytes.drop m.format.nops, hi, by rw [hops, List.take_append_drop]⟩

/-- The number of register indices among the operands of a format (spec/30_encoding.md R74). -/
def Format.nregs : Format → Nat
  | .z => 0
  | .r => 1
  | .rr => 2
  | .ri => 1

/-- The register indices are the first operand bytes, as many as the format says. -/
theorem Instr.regOperands_eq_take (i : Instr) : i.regOperands = i.operandBytes.take i.mnemonic.format.nregs := by
  cases i <;> rfl

/-! ### What the decoder answers -/

section
variable {map : Mnemonic → Byte} {op : Byte}

theorem decodeWith_of_lookup_none (h : decodeOpWith map op = none) (tail : List Byte) :
    decodeWith map (op :: tail) = .invalidOpcode op := by
  rw [decodeWith, h]

/-- After the opcode byte of an instruction, its operand bytes give the instruction and leave what follows. -/
theorem decodeWith_of_lookup_instr {i : Instr} (h : decodeOpWith map op = some i.mnemonic.record) (rest : List Byte) :
    decodeWith map (op :: (i.operandBytes ++ rest)) = .instr i rest := by
  rw [decodeWith, h]
  cases i <;> rfl

/-- After the opcode byte of a mnemonic, fewer bytes than its format has operands are too few. -/
theorem decodeWith_of_lookup_short {m : Mnemonic} (h : decodeOpWith map op = some m.record) {tail : List Byte}
    (hlen : tail.length < m.format.nops) : decodeWith map (op :: tail) = .truncated := by
  rw [decodeWith, h]
  simp only [Mnemonic.record_nops]
  match hn : m.format.nops, tail with
  | 0, _ => omega
  | 1, [] | 2, [] | 2, [_] => rfl
  | 1, _ :: _ | 2, _ :: _ :: _ => simp [hn] at hlen
  | n + 3, _ =>
    have hle := m.format.nops_le_two
    omega

end

/-- What the decoder can answer: `truncated` on the empty list, `invalidOpcode` on a byte outside the table,
`truncated` on an opcode with too few bytes after it, or an instruction whose encoding the list begins with. -/
theorem decodeWith_cases (map : Mnemonic → Byte) (bytes : List Byte) :
    (bytes = [] ∧ decodeWith map bytes = .truncated) ∨
      (∃ op tail, bytes = op :: tail ∧ (∀ m, map m ≠ op) ∧ decodeWith map bytes = .invalidOpcode op) ∨
      (∃ m tail, bytes = map m :: tail ∧ tail.length < m.format.nops ∧ decodeWith map bytes = .truncated) ∨
      ∃ i rest, bytes = encodeWith map i ++ rest ∧ decodeWith map bytes = .instr i rest := by
  cases bytes with
  | nil => exact .inl ⟨rfl, rfl⟩
  | cons op tail =>
    refine .inr ?_
    cases hd : decodeOpWith map op with
    | none => exact .inl ⟨op, tail, rfl, decodeOpWith_eq_none.mp hd, decodeWith_of_lookup_none hd tail⟩
    | some d =>
      obtain ⟨m, rfl, rfl⟩ := decodeOpWith_sound hd
      refine .inr ?_
      rcases Nat.lt_or_ge tail.length m.format.nops with hlen | hlen
      · exact .inl ⟨m, tail, rfl, hlen, decodeWith_of_lookup_short hd hlen⟩
      · obtain ⟨i, rest, rfl, rfl⟩ := m.exists_instr_append hlen
        exact .inr ⟨i, rest, rfl, decodeWith_of_lookup_instr hd rest⟩

/-- Under an injective map, decoding an encoding gives the instruction back (spec/30_encoding.md R60, R66). -/
theorem decodeWith_encodeWith_append {map : Mnemonic → Byte} (hmap : Function.Injective map) (i : Instr)
    (rest : List Byte) : decodeWith map (encodeWith map i ++ rest) = .instr i rest :=
  decodeWith_of_lookup_instr (decodeOpWith_map hmap i.mnemonic) rest

theorem decode_encode_append (i : Instr) (rest : List Byte) : decode (encode i ++ rest) = .instr i rest :=
  decodeWith_encodeWith_append Config.opcodeMap_injective i rest

/-- Settles O4: the lookup finds the mnemonic by its opcode byte, and the operand bytes are those of its format. -/
theorem decodeOfEncode : Obligations.DecodeOfEncode :=
  ⟨Config.opcodeMap_injective, fun _ hmap => decodeWith_encodeWith_append hmap⟩

/-- Settles O5: of the decoder's answers only the last is an instruction. -/
theorem encodeOfDecode : Obligations.EncodeOfDecode := by
  intro map bytes i rest h
  rcases decodeWith_cases map bytes with ⟨-, he⟩ | ⟨op, tail, -, -, he⟩ | ⟨m, tail, -, -, he⟩ | ⟨j, rest', hb, he⟩
  · cases h.symm.trans he
  · cases h.symm.trans he
  · cases h.symm.trans he
  · cases h.symm.trans he
    exact hb

theorem decode_eq_invalidOpcode_iff {bytes : List Byte} {op : Byte} :
    decode bytes = .invalidOpcode op ↔ bytes.head? = some op ∧ ∀ m, Config.opcodeMap m ≠ op := by
  constructor
  · intro h
    rcases decodeWith_cases Config.opcodeMap bytes with
      ⟨-, he⟩ | ⟨op', tail, rfl, hop, he⟩ | ⟨m, tail, -, -, he⟩ | ⟨i, rest, -, he⟩
    · cases h.symm.trans he
    · cases h.symm.trans he
      exact ⟨rfl, hop⟩
    · cases h.symm.trans he
    · cases h.symm.trans he
  · rintro ⟨hhead, hop⟩
    obtain ⟨tail, rfl⟩ := List.head?_eq_some_iff.mp hhead
    exact decodeWith_of_lookup_none (decodeOpWith_eq_none.mpr hop) tail

theorem decode_eq_truncated_iff {bytes : List Byte} :
    decode bytes = .truncated ↔
      bytes = [] ∨ ∃ m rest, bytes = Config.opcodeMap m :: rest ∧ rest.length < m.format.nops := by
  constructor
  · intro h
    rcases decodeWith_cases Config.opcodeMap bytes with
      ⟨hnil, -⟩ | ⟨op, tail, -, -, he⟩ | ⟨m, tail, hb, hlen, -⟩ | ⟨i, rest, -, he⟩
    · exact .inl hnil
    · cases h.symm.trans he
    · exact .inr ⟨m, tail, hb, hlen⟩
    · cases h.symm.trans he
  · rintro (rfl | ⟨m, rest, rfl, hlen⟩)
    · rfl
    · exact decodeWith_of_lookup_short (decodeOp_opcodeMap m) hlen

/-- Settles O6: each rejection is one of the decoder's answers, under the condition that answer comes with. -/
theorem decoderRejections : Obligations.DecoderRejections := fun _ =>
  ⟨fun _ => decode_eq_invalidOpcode_iff, decode_eq_truncated_iff⟩

/-- Settles O7: the bytes that the format takes are the operand bytes of an instruction, whose encoding the list then
begins with. -/
theorem lengthFollowsOpcode : Obligations.LengthFollowsOpcode := by
  intro m rest hlen
  obtain ⟨i, tail, rfl, rfl⟩ := m.exists_instr_append hlen
  rw [List.take_left' i.operandBytes_length, List.drop_left' i.operandBytes_length]
  exact ⟨i, rfl, rfl, decode_encode_append i tail⟩

/-! ### The opcode table -/

/-- Settles O3: a record with the columns of its mnemonic is that mnemonic's record. -/
theorem decodeMatchesWholeByte : Obligations.DecodeMatchesWholeByte := by
  intro map hmap op d
  constructor
  · intro h
    obtain ⟨m, rfl, rfl⟩ := decodeOpWith_sound h
    exact ⟨rfl, rfl, rfl, rfl⟩
  · rintro ⟨rfl, hformat, hnops, haluOp⟩
    have hrecord : d.mnemonic.record = d := by
      rw [Mnemonic.record, ← hformat, ← hnops, ← haluOp]
    exact hrecord ▸ decodeOpWith_map hmap d.mnemonic

/-- Settles O1: each list is the encoding of the instruction followed by the rest. -/
theorem specWordsDecode : Obligations.SpecWordsDecode :=
  ⟨decode_encode_append (.ldi 0 8) [0x47, 0x00, 0x01], decode_encode_append (.prn 0) [0x01],
    decode_encode_append .hlt [], decode_encode_append (.push 1) [], decode_encode_append (.call 2) [],
    decode_encode_append .ret [0x33], decode_encode_append (.cmp 0 2) [], decode_encode_append (.jne 3) [],
    decode_encode_append (.mod 2 0) [], decode_encode_append (.not 3) []⟩

set_option maxRecDepth 100000 in
/-- All bytes but the 20 opcodes are illegal (spec/30_encoding.md R68). -/
theorem countP_decodeOp_isNone :
    ((List.range 256).countP fun n => (decodeOp (BitVec.ofNat 8 n)).isNone) = 236 := by decide

/-- Settles O2: the rows are the definitions of the map, the format and the ALU operation. -/
theorem opcodeTableRows : Obligations.OpcodeTableRows := ⟨rfl, countP_decodeOp_isNone⟩

/-- Settles O8: a format fixes how many operand bytes there are and how many of them are register indices. -/
theorem registerOperandsByFormat : Obligations.RegisterOperandsByFormat := by
  intro i
  rw [i.regOperands_eq_take]
  have hlen := i.operandBytes_length
  refine ⟨fun hf => ?_, fun hf => ?_, fun hf => ?_, fun hf => ?_⟩ <;> rw [hf] at hlen ⊢
  · obtain ⟨a, ha⟩ := List.length_eq_one_iff.mp hlen
    exact ⟨a, ha, by rw [ha]; rfl⟩
  · obtain ⟨a, b, hab⟩ := List.length_eq_two.mp hlen
    exact ⟨a, b, hab, by rw [hab]; rfl⟩
  · obtain ⟨a, b, hab⟩ := List.length_eq_two.mp hlen
    exact ⟨a, b, hab, by rw [hab]; rfl⟩
  · exact ⟨List.length_eq_zero_iff.mp hlen, rfl⟩

end Sys2Proof

namespace Sys2Proof.Machine

/-! ### Faults of the encoding -/

/-- The state of fault entry is as the rule describes it (spec/60_exceptions.md R178). -/
theorem State.faultEntered_enterFault (s : State) (c : FaultCause) (info : Byte) :
    FaultEntered c info s (s.enterFault c info) :=
  ⟨rfl, rfl, rfl, rfl, rfl, fun _ _ => rfl, fun _ => rfl, rfl, rfl⟩

/-- Settles O33: the first bad byte is raised in place of the instruction, and raising is fault entry. -/
theorem badRegisterFaults : Obligations.BadRegisterFaults := by
  intro i s b hbad
  have hb : 7 < b.toNat := by simpa using List.find?_some hbad
  exact ⟨hb, _, exec_of_badRegister hbad s, s.faultEntered_enterFault _ _⟩

/-- Settles O17: the zero byte is no opcode, so the fault that the step decides is InvalidOpcode. -/
theorem zeroByteFaults : Obligations.ZeroByteFaults := by
  intro s hrun hzero
  have hnone : decodeOp (s.memRead s.pc) = none := by
    rw [hzero]
    decide
  have hf : StepFaultOf s .invalidOpcode 0 := .inl ⟨s.fetchDecode_eq_none.mpr hnone, rfl, hzero.symm⟩
  exact ⟨_, step_of_stepFaultOf hrun hf, s.faultEntered_enterFault _ _⟩

/-! ### The loader -/

/-- The character of a bit (spec/30_encoding.md R72). -/
def bitChar (b : Bool) : Char := if b then '1' else '0'

@[simp] theorem bitOf?_bitChar (b : Bool) : bitOf? (bitChar b) = some b.toNat := by cases b <;> rfl

/-- The low `n` bits of a byte as text, most significant first. -/
def bitText (v : Byte) (n : Nat) : List Char := (List.range n).map fun k => bitChar (v.getLsbD (n - 1 - k))

theorem bitText_length (v : Byte) (n : Nat) : (bitText v n).length = n := by simp [bitText]

theorem bitText_succ (v : Byte) (n : Nat) : bitText v (n + 1) = bitChar (v.getLsbD n) :: bitText v n := by
  simp only [bitText, List.range_succ_eq_map, List.map_cons, List.map_map]
  refine congrArg₂ List.cons rfl (List.map_congr_left fun k _ => ?_)
  have hindex : n + 1 - 1 - (k + 1) = n - 1 - k := by omega
  exact congrArg (fun j => bitChar (v.getLsbD j)) hindex

/-- Reading the text of the low `n` bits shifts them in from the right, by induction on `n`: the first character is
bit `n - 1`, which weighs `2 ^ (n - 1)`. -/
theorem bitsValue?_bitText (v : Byte) (n : Nat) : ∀ acc : Nat,
    bitsValue? (bitText v n) acc = some (acc * 2 ^ n + v.toNat % 2 ^ n) := by
  induction n with
  | zero => intro acc; simp [bitText, bitsValue?, Nat.mod_one]
  | succ n ih =>
    intro acc
    have htop : v.toNat % 2 ^ (n + 1) = v.toNat % 2 ^ n + 2 ^ n * (v.getLsbD n).toNat := by
      rw [Nat.mod_pow_succ, BitVec.getLsbD, Nat.toNat_testBit]
    simp only [bitText_succ, bitsValue?, bitOf?_bitChar, ih, htop]
    congr 1
    ring

/-- The eight bits of a byte followed by anything are read as the byte (spec/30_encoding.md R72). -/
theorem lineByte?_bitText_append (v : Byte) (rest : List Char) : lineByte? (bitText v 8 ++ rest) = some v := by
  have htake : (bitText v 8 ++ rest).take 8 = bitText v 8 := List.take_left' (bitText_length v 8)
  have hvalue : bitsValue? (bitText v 8) 0 = some v.toNat := by
    rw [bitsValue?_bitText, Nat.zero_mul, Nat.zero_add, Nat.mod_eq_of_lt v.isLt]
  rw [lineByte?, htake, if_pos (bitText_length v 8), hvalue, Option.map_some, BitVec.ofNat_toNat, BitVec.setWidth_eq]

/-- A line that begins with a bit is neither a comment nor blank. -/
theorem lineSkipped_bitChar_cons (b : Bool) (rest : List Char) : lineSkipped (bitChar b :: rest) = false := by
  cases b <;> simp [lineSkipped, bitChar, Char.isWhitespace]

/-- Settles O59: the line is not skipped, and its first eight characters are the text of the byte. -/
theorem loaderReadsBits : Obligations.LoaderReadsBits := by
  intro v rest
  change parseProgram [bitText v 8 ++ rest] = some [v]
  have hkept : lineSkipped (bitText v 8 ++ rest) = false := by
    rw [bitText_succ]
    exact lineSkipped_bitChar_cons ..
  simp [parseProgram, hkept, lineByte?_bitText_append]

end Sys2Proof.Machine
end

section
/-!
SUPPORT. What fetch and decode give at `PC`, which fault a step enters, which registers an instruction writes, what the
seven blocks do on a fetched instruction, and the statements of the family 40_fetch_decode_execute.md settled with them.
-/

namespace Sys2Proof

/-- An instruction is its mnemonic and its operand bytes: the encoding, which decodes to it, is made of nothing else. -/
theorem Instr.eq_of_operandBytes {i j : Instr} (hm : i.mnemonic = j.mnemonic) (hops : i.operandBytes = j.operandBytes) :
    i = j := by
  have henc : encode i = encode j := by rw [encode, encode, encodeWith, encodeWith, hm, hops]
  have hdec := decode_encode_append i []
  rw [henc, decode_encode_append] at hdec
  exact ((DecodeResult.instr.inj hdec).1).symm

end Sys2Proof

namespace Sys2Proof.Machine

/-! ### Fetch and decode -/

/-- Fetch gives what the decoder reads from the three bytes at `PC` (spec/40_fetch_decode_execute.md R80, R81). -/
theorem State.fetchDecode_of_decode {s : State} {i : Instr} {rest : List Byte}
    (h : decode s.fetchWindow = .instr i rest) : s.fetchDecode = some i := by
  have hbytes : s.fetchWindow = encode i ++ rest := encodeOfDecode _ _ _ _ h
  obtain ⟨hop, hops⟩ := List.cons.inj hbytes
  rw [s.fetchDecode_of_opcode hop]
  refine congrArg some (Instr.eq_of_operandBytes (Mnemonic.build_mnemonic ..) ?_)
  rw [Mnemonic.build_operandBytes, hops]
  exact List.take_left' i.operandBytes_length

/-- Settles O9: fetch gives the decoded instruction, and the step executes what fetch gives. -/
theorem stepRunsDecoded : Obligations.StepRunsDecoded := fun _ _ _ hrun hdecode =>
  step_of_fetched hrun (State.fetchDecode_of_decode hdecode)

/-! ### The order of checks -/

/-- Settles O14: the step raises every fault that the checks decide, and it raises only one. -/
theorem faultPriorityDecides : Obligations.FaultPriorityDecides := by
  intro s cause info hrun h
  have hstep := step_of_stepFaultOf hrun h
  refine ⟨⟨_, hstep, s.faultEntered_enterFault cause info⟩, fun cause' info' h' => ?_⟩
  have hsame : s.enterFault cause' info' = s.enterFault cause info :=
    Host.Outcome.next.inj ((step_of_stepFaultOf hrun h').symm.trans hstep)
  exact ⟨congrArg State.faultCause hsame, congrArg State.faultInfo hsame⟩

/-! ### The registers an instruction writes -/

/-- An ALU instruction that gets a value from the ALU writes its first register operand. -/
theorem mem_writtenRegs_of_aluVal {i : Instr} {op : AluOp} {a x y v : Byte} (hop : i.mnemonic.aluOp = some op)
    (ha : i.regOperands.head? = some a) (hv : aluVal (some op) x y = .value v) : a ∈ i.writtenRegs := by
  cases i with
  | ldi | prn | push | pop | call | ret | jmp | jeq | jne | hlt => cases hop
  | cmp =>
    cases hop
    cases hv
  | add | mul | and | or | xor | mod | shl | shr | not =>
    obtain rfl := Option.some.inj ha
    exact List.mem_singleton_self _

/-- A completed instruction keeps every register that its row of the table does not name
(spec/40_fetch_decode_execute.md R84). -/
theorem Completes.readReg_eq {s t : State} {i : Instr} {q : RegIdx} (h : Completes s i t)
    (hq : regByte q ∉ i.writtenRegs) : t.readReg q = s.readReg q := by
  have hne : ∀ {r : RegIdx}, regByte r ∈ i.writtenRegs → q ≠ r := by
    rintro r hr rfl
    exact hq hr
  cases h with
  | prn | cmp | jmp | jeq | jne | hlt => rfl
  | ldi r imm => exact s.readReg_writeReg_ne imm (hne (List.mem_singleton_self _))
  | alu hop hr _ hv => exact s.readReg_writeReg_ne _ (hne (mem_writtenRegs_of_aluVal hop hr hv))
  | push | call | ret => exact s.readReg_writeReg_ne _ (hne (r := Config.spIndex) (List.mem_singleton_self _))
  | pop r =>
    have hsp : q ≠ Config.spIndex := hne (List.mem_cons_of_mem _ (List.mem_singleton_self _))
    exact (State.readReg_writeReg_ne _ _ hsp).trans (s.readReg_writeReg_ne _ (hne List.mem_cons_self))

/-- Settles O39: fault entry keeps every register, and a completed instruction writes only those of its row. -/
theorem registersWrittenAsTabulated : Obligations.RegistersWrittenAsTabulated := by
  intro i s t q h hq
  rcases exec_next_cases h with ⟨c, info, -, rfl⟩ | ht
  · rfl
  · exact ht.readReg_eq hq

/-! ### The seven blocks: what they present and decode -/

/-- The byte lines carry the instruction: its opcode byte, and the operand bytes that its format has
(spec/40_fetch_decode_execute.md R86). -/
def Fetched.Carries (f : Fetched) (i : Instr) : Prop :=
  f.op = Config.opcodeMap i.mnemonic ∧ i.mnemonic.build f.a f.b = i

theorem State.fetchUnit_carries {s : State} {i : Instr} (h : s.fetchDecode = some i) :
    (fetchUnit s.pc s.run s.mem).Carries i := by
  rw [s.fetchDecode_eq_map, Option.map_eq_some_iff] at h
  obtain ⟨d, hd, rfl⟩ := h
  obtain ⟨m, hop, rfl⟩ := decodeOpWith_sound hd
  rw [Fetched.Carries, Mnemonic.build_mnemonic]
  exact ⟨hop.symm, rfl⟩

theorem Fetched.Carries.instructionDecoder_eq {f : Fetched} {i : Instr} (hf : f.Carries i) :
    instructionDecoder f.op = some (controlOf i.mnemonic) := by
  rw [instructionDecoder, hf.1, decodeOp_opcodeMap]
  rfl

/-- The bytes that the decoder's `chk_a` and `chk_b` have checked are the register operands, `a` before `b`
(spec/40_fetch_decode_execute.md R87, 30_encoding.md R74). -/
theorem Fetched.Carries.regOperands_eq {f : Fetched} {i : Instr} (hf : f.Carries i) :
    i.regOperands = (if (controlOf i.mnemonic).chkA then [f.a] else []) ++
      if (controlOf i.mnemonic).chkB then [f.b] else [] := by
  obtain ⟨-, hbuild⟩ := hf
  rw [← hbuild, Mnemonic.build_mnemonic]
  cases i.mnemonic <;> rfl

theorem controlOf_aluOp (m : Mnemonic) : (controlOf m).aluOp = m.aluOp := by cases m <;> rfl

/-- The row of an instruction that writes a register through the ALU (spec/40_fetch_decode_execute.md R87). -/
theorem controlOf_of_aluOp {m : Mnemonic} {op : AluOp} (hop : m.aluOp = some op) (hcmp : op ≠ .cmp) :
    controlOf m =
      ⟨m.format.nops, true, decide (op ≠ .not), some op, .alu, .none, false, .seq, false, false⟩ := by
  cases m with
  | ldi | prn | push | pop | call | ret | jmp | jeq | jne | hlt => cases hop
  | cmp => exact absurd (Option.some.inj hop).symm hcmp
  | add | mul | and | or | xor | mod | shl | shr | not =>
    cases hop
    rfl

/-! ### The ALU and the fault signal on the byte lines -/

/-- What the ALU block answers on the byte lines, with `b = a` for NOT (spec/40_fetch_decode_execute.md R87, R89). -/
def blockAlu (c : Control) (f : Fetched) (s : State) : AluResult :=
  aluVal c.aluOp (s.readReg (indexLines f.a)) (s.readReg (indexLines (if c.aluOp = some .not then f.a else f.b)))

theorem indexLines_regByte (r : RegIdx) : indexLines (regByte r) = r := by
  simp only [indexLines, regByte_toNat, Nat.mod_eq_of_lt r.isLt]

/-- The fault of the ALU block, with the opcode byte as its info: the last check of the fault signal
(spec/40_fetch_decode_execute.md R82). -/
def aluSignal (aluOp : Option AluOp) (r : AluResult) (op : Byte) : Option (FaultCause × Byte) :=
  match aluOp, r with
  | some _, .fault cause => some (cause, op)
  | _, _ => none

section
variable {s t : State} {i : Instr} {f : Fetched}

theorem Fetched.Carries.indexLines_a {r : RegIdx} (hf : f.Carries i) (hr : i.regOperands.head? = some (regByte r)) :
    indexLines f.a = r := by
  obtain ⟨-, hbuild⟩ := hf
  have ha : f.a = regByte r := by
    rw [← hbuild] at hr
    cases hm : i.mnemonic with
    | ret | hlt =>
      rw [hm] at hr
      cases hr
    | ldi | prn | push | pop | call | cmp | jmp | jeq | jne | add | mul | and | or | xor | mod | shl | shr | not =>
      rw [hm] at hr
      exact Option.some.inj hr
  rw [ha, indexLines_regByte]

/-- For an ALU instruction the ALU block computes on the first and the last register operand. -/
theorem Fetched.Carries.blockAlu_eq {op : AluOp} {r q : RegIdx} (hf : f.Carries i) (hop : i.mnemonic.aluOp = some op)
    (hr : i.regOperands.head? = some (regByte r)) (hq : i.regOperands.getLast? = some (regByte q)) :
    blockAlu (controlOf i.mnemonic) f s = aluVal (some op) (s.readReg r) (s.readReg q) := by
  have hlast : (if (controlOf i.mnemonic).aluOp = some .not then f.a else f.b) = regByte q := by
    obtain ⟨-, hbuild⟩ := hf
    rw [← hbuild] at hq
    cases hm : i.mnemonic with
    | ldi | prn | push | pop | call | ret | jmp | jeq | jne | hlt =>
      rw [hm] at hop
      cases hop
    | cmp | add | mul | and | or | xor | mod | shl | shr | not =>
      rw [hm] at hq
      exact Option.some.inj hq
  rw [blockAlu, hlast, hf.indexLines_a hr, indexLines_regByte, controlOf_aluOp, hop]

/-- The first register byte above 7, as the decoder's `chk_a` and `chk_b` find it on the byte lines
(spec/40_fetch_decode_execute.md R82, R87). -/
theorem Fetched.Carries.badRegister_eq (hf : f.Carries i) :
    i.badRegister =
      if (controlOf i.mnemonic).chkA && decide (7 < f.a.toNat) then some f.a
      else if (controlOf i.mnemonic).chkB && decide (7 < f.b.toNat) then some f.b else none := by
  have hone : ∀ (chk : Bool) (x : Byte), (if chk then [x] else []).find? (fun y => decide (7 < y.toNat)) =
      if chk && decide (7 < x.toNat) then some x else none := by
    intro chk x
    cases chk with
    | false => rfl
    | true => exact List.find?_singleton
  rw [Instr.badRegister, hf.regOperands_eq, List.find?_append, hone, hone]
  split <;> rfl

theorem Fetched.Carries.faultSignal_of_badRegister {b : Byte} (hf : f.Carries i) (hbad : i.badRegister = some b)
    (r : AluResult) : faultSignal (controlOf i.mnemonic) f r = some (.invalidRegister, b) := by
  rw [hf.badRegister_eq] at hbad
  unfold faultSignal
  split at hbad
  · next ha => rw [if_pos ha, Option.some.inj hbad]
  · next ha =>
    split at hbad
    · next hb => rw [if_neg ha, if_pos hb, Option.some.inj hbad]
    · cases hbad

/-- With every register byte legal, the fault signal is the ALU's. -/
theorem Fetched.Carries.faultSignal_of_good (hf : f.Carries i) (hgood : i.badRegister = none) (r : AluResult) :
    faultSignal (controlOf i.mnemonic) f r = aluSignal i.mnemonic.aluOp r f.op := by
  rw [hf.badRegister_eq] at hgood
  unfold faultSignal
  split at hgood
  · cases hgood
  · next ha =>
    split at hgood
    · cases hgood
    · next hb =>
      rw [if_neg ha, if_neg hb, controlOf_aluOp]
      rfl

/-- The blocks signal the fault that the order of checks decides (spec/40_fetch_decode_execute.md R82). -/
theorem Fetched.Carries.faultSignal_of_faultOf {c : FaultCause} {info : Byte} (hf : f.Carries i)
    (h : FaultOf i s c info) :
    faultSignal (controlOf i.mnemonic) f (blockAlu (controlOf i.mnemonic) f s) = some (c, info) := by
  rcases h with ⟨hbad, rfl⟩ | ⟨hgood, ⟨r, q, rfl, hzero⟩, rfl, rfl⟩
  · exact hf.faultSignal_of_badRegister hbad _
  · rw [hf.faultSignal_of_good hgood, hf.blockAlu_eq (r := r) (q := q) rfl rfl rfl, hzero, aluVal_mod_zero, hf.1]
    rfl

theorem Completes.badRegister_eq_none (h : Completes s i t) (hrun : s.run = .running) : i.badRegister = none := by
  rcases Instr.badRegister_cases i with ⟨b, hbad, -, -⟩ | ⟨hgood, -⟩
  · have hfaulted : t.run = .faulted :=
      congrArg State.run (Host.Outcome.next.inj (h.exec_eq.symm.trans (exec_of_badRegister hbad s)))
    rw [h.run_eq, hrun] at hfaulted
    split at hfaulted <;> cases hfaulted
  · exact hgood

/-- The ALU block does not fault under an instruction that completes. -/
theorem Fetched.Carries.aluSignal_of_completes (hf : f.Carries i) (h : Completes s i t) :
    aluSignal i.mnemonic.aluOp (blockAlu (controlOf i.mnemonic) f s) f.op = none := by
  cases h with
  | alu hop hr hq hv =>
    rw [hf.blockAlu_eq hop hr hq, hv, hop]
    rfl
  | cmp r q =>
    rw [hf.blockAlu_eq (r := r) (q := q) rfl rfl rfl]
    rfl
  | _ => rfl

/-- Of an instruction that completes, the blocks together have the effect that its own rule has
(spec/40_fetch_decode_execute.md R93). -/
theorem Fetched.Carries.blockEffect_of_completes (hf : f.Carries i) (h : Completes s i t) :
    blockEffect (controlOf i.mnemonic) f (blockAlu (controlOf i.mnemonic) f s) s = t := by
  cases h with
  | ldi r imm =>
    obtain ⟨-, himm⟩ := Instr.ldi.inj hf.2
    rw [blockEffect, hf.indexLines_a rfl, himm]
    rfl
  | cmp r q =>
    rw [hf.blockAlu_eq (r := r) (q := q) rfl rfl rfl]
    rfl
  | @alu _ op r q v hop hr hq hv =>
    have hcmp : op ≠ .cmp := by
      rintro rfl
      cases hv
    have hlen : (encode i).length = 1 + i.mnemonic.format.nops := by
      rw [← i.operandBytes_length, Nat.add_comm]
      rfl
    rw [hf.blockAlu_eq hop hr hq, hv, controlOf_of_aluOp hop hcmp, blockEffect, hf.indexLines_a hr, hlen]
    rfl
  | ret | hlt => rfl
  | prn r | push r | pop r | call r | jmp r | jeq r | jne r =>
    rw [blockEffect, hf.indexLines_a rfl]
    rfl

end

/-! ### The step of the blocks -/

section
variable {s : State}

theorem blockStep_not_running (hrun : s.run ≠ .running) : blockStep s = .next s :=
  if_neg (mt beq_iff_eq.mp hrun)

theorem blockStep_of_illegal (hrun : s.run = .running) (hnone : s.fetchDecode = none) :
    blockStep s = raise .invalidOpcode (s.memRead s.pc) s := by
  have hdec : instructionDecoder (fetchUnit s.pc s.run s.mem).op = none :=
    congrArg (Option.map _) (s.fetchDecode_eq_none.mp hnone)
  have hen : (fetchUnit s.pc s.run s.mem).stepEnable = true := beq_iff_eq.mpr hrun
  simp only [blockStep, hen, hdec]
  rfl

/-- On a decoded instruction the blocks raise what is signalled, or else have their effect. -/
theorem blockStep_of_decoded {f : Fetched} {c : Control} (hf : fetchUnit s.pc s.run s.mem = f)
    (hrun : s.run = .running) (hc : instructionDecoder f.op = some c) :
    blockStep s = match faultSignal c f (blockAlu c f s) with
      | some (cause, info) => raise cause info s
      | none => .next (blockEffect c f (blockAlu c f s) s) := by
  have hen : f.stepEnable = true := hf ▸ beq_iff_eq.mpr hrun
  simp only [blockStep, hf, hen, hc, if_true]
  rfl

/-- On a fetched instruction the blocks do what its own rule does: they raise the fault that the order of checks
decides, or have the effect of the completion. -/
theorem blockStep_of_fetched {i : Instr} (hrun : s.run = .running) (hi : s.fetchDecode = some i) :
    blockStep s = exec i s := by
  have hf := s.fetchUnit_carries hi
  rw [blockStep_of_decoded rfl hrun hf.instructionDecoder_eq]
  rcases exec_cases i s with ⟨c, info, hfault, hexec⟩ | ⟨t, ht, hexec⟩
  · rw [hf.faultSignal_of_faultOf hfault, hexec]
  · rw [hf.faultSignal_of_good (ht.badRegister_eq_none hrun), hf.aluSignal_of_completes ht,
      hf.blockEffect_of_completes ht, hexec]

end

/-- Settles O45: outside RUNNING both hold the state; while RUNNING both raise InvalidOpcode on an illegal byte and do
the same on a fetched instruction. -/
theorem blocksComposeToStep : Obligations.BlocksComposeToStep := by
  intro s
  by_cases hrun : s.run = .running
  · cases hi : s.fetchDecode with
    | none => rw [blockStep_of_illegal hrun hi, step_running s hrun, hi]
    | some i => rw [blockStep_of_fetched hrun hi, step_of_fetched hrun hi]
  · rw [blockStep_not_running hrun, step_not_running s hrun]

end Sys2Proof.Machine
end

section
/-!
SUPPORT. When an execution leaves one register with one value and moves `PC` past the instruction, said once for LDI
and the ALU instructions, and the statements of the family 41_load_immediate_print.md settled with it.
-/

namespace Sys2Proof.Machine

theorem State.pcAdvances_advance (s : State) (n : Nat) : PcAdvances n s (s.advance n) := s.pcPlus_toNat n

/-- A register write followed by the sequential update of `PC` has the frame of the instructions that write one
register (spec/40_fetch_decode_execute.md R84, R88). -/
theorem writesRegOnly_of_exec_eq {i : Instr} {len : Nat} {r : RegIdx} {v : Byte} {s : State}
    (h : exec i s = .next ((s.writeReg r v).advance len)) : WritesRegOnly i len r v s := by
  have hframe : SameRegsBut [r] s ((s.writeReg r v).advance len) := fun q hq =>
    s.readReg_writeReg_ne v (List.ne_of_not_mem_cons hq)
  exact ⟨_, h, s.readReg_writeReg_same r v, hframe, (s.writeReg r v).pcAdvances_advance len, fun _ => rfl, rfl, rfl,
    rfl, rfl, rfl, rfl⟩

/-- Settles O18: a legal index gives the register write, an illegal one is the first bad byte, and the operands are the
two bytes after the opcode as fetch reads them. -/
theorem ldiLoadsImmediate : Obligations.LdiLoadsImmediate := by
  intro s imm
  refine ⟨fun r => writesRegOnly_of_exec_eq (exec_ldi s r imm), fun a ha => ?_, fun _ => rfl, fun hrun hop => ?_⟩
  · have hbad : (Instr.ldi a imm).badRegister = some a := List.find?_cons_of_pos (decide_eq_true ha)
    exact (badRegisterFaults _ s a hbad).2
  · exact step_of_fetched hrun (s.fetchDecode_of_opcode (m := .ldi) hop)

/-- Settles O19: emitting appends `R[a]` to `OUT` alone, and the sequential update moves `PC` alone. -/
theorem prnEmitsRegister : Obligations.PrnEmitsRegister := fun s r =>
  ⟨_, exec_prn s r, rfl, s.pcAdvances_advance 2, fun _ _ => rfl, fun _ => rfl, rfl, rfl, rfl, rfl, rfl⟩

end Sys2Proof.Machine
end

section
/-!
SUPPORT. The numbers of stack pointer arithmetic, what a push and a pop read and leave unchanged, and the statements of
the family 42_stack.md settled with them.
-/

namespace Sys2Proof.Machine

/-! ### Stack pointer and program counter -/

/-- A push decrements modulo 256 (spec/42_stack.md R110). -/
theorem spPush_toNat (x : Byte) : (spPush x).toNat = (x.toNat + 255) % 256 := by
  rw [spPush]
  bv_omega

/-- A pop increments modulo 256 (spec/42_stack.md R111). -/
theorem spPop_toNat (x : Byte) : (spPop x).toNat = (x.toNat + 1) % 256 := BitVec.toNat_add x 1

theorem PcAdvances.pc_eq {n : Nat} {s t : State} (h : PcAdvances n s t) : t.pc = s.pcPlus n :=
  BitVec.eq_of_toNat_eq (h.trans (s.pcPlus_toNat n).symm)

/-- The addresses behind the new `PC` are addresses behind the old one (spec/10_state.md R23). -/
theorem PcAdvances.pcPlus_eq {n : Nat} {s t : State} (h : PcAdvances n s t) (k : Nat) :
    t.pcPlus k = s.pcPlus (n + k) := by
  rw [← s.pcPlus_advance, State.pcPlus, h.pc_eq]
  rfl

/-! ### The store of a push -/

section
variable (s : State) (v : Byte)

theorem State.memRead_storeTop_decSp_same : (s.decSp.storeTop v).memRead (spPush s.sp) = v := by
  rw [State.memRead_storeTop, State.sp_decSp, if_pos rfl]

theorem State.sameMemBut_storeTop_decSp : SameMemBut (spPush s.sp) s (s.decSp.storeTop v) := by
  intro x hx
  rw [State.memRead_storeTop, State.sp_decSp, if_neg hx, State.decSp_memRead]

theorem State.sameRegsBut_decSp : SameRegsBut [7] s s.decSp := fun _ hq =>
  s.readReg_writeReg_ne _ (List.ne_of_not_mem_cons hq)

end

/-! ### PUSH and POP -/

/-- Settles O20: the store at the decremented `R[7]` changes that cell alone, and `R[a]` is read from the registers that
the decrement leaves. -/
theorem pushStoresBelow : Obligations.PushStoresBelow := by
  intro s r
  have hval : s.decSp.readReg r = if r = 7 then spPush s.sp else s.readReg r := s.readReg_decSp r
  exact ⟨_, exec_push s r, s.sp_decSp, spPush_toNat s.sp, (s.memRead_storeTop_decSp_same _).trans hval,
    s.sameMemBut_storeTop_decSp _, s.sameRegsBut_decSp, s.pcPlus_toNat 2, rfl, rfl, rfl, rfl, rfl, rfl⟩

/-- Settles O21: the increment sees the popped byte where `R[7]` is the destination, and the old `SP` elsewhere. -/
theorem popLoadsTop : Obligations.PopLoadsTop := by
  intro s r
  generalize ht : (s.writeReg r s.loadTop).incSp.advance 2 = t
  have hexec : exec (.pop (regByte r)) s = .next t := ht ▸ exec_pop s r
  have hsp : t.sp = spPop (s.writeReg r s.loadTop).sp := ht ▸ State.sp_incSp _
  have hreg : ∀ q, q ≠ 7 → t.readReg q = (s.writeReg r s.loadTop).readReg q := fun q hq =>
    ht ▸ State.readReg_writeReg_ne _ _ hq
  refine ⟨t, hexec, fun hr => ⟨?_, ?_⟩, ?_, fun q hq => ?_, ?_⟩
  · rw [hreg r hr, State.readReg_writeReg_same]
    rfl
  · have hold : (s.writeReg r s.loadTop).sp = s.sp := s.readReg_writeReg_ne _ hr.symm
    rw [hsp, hold, spPop_toNat]
  · rintro rfl
    have hpopped : (s.writeReg 7 s.loadTop).sp = s.memRead s.sp := s.readReg_writeReg_same 7 _
    rw [hsp, hpopped, spPop_toNat]
  · obtain ⟨hqr, hq7⟩ := List.ne_and_not_mem_of_not_mem_cons hq
    rw [hreg q (List.ne_of_not_mem_cons hq7), s.readReg_writeReg_ne _ hqr]
  · subst ht
    exact ⟨fun _ => rfl, s.pcPlus_toNat 2, rfl, rfl, rfl, rfl, rfl, rfl⟩

/-! ### PUSH followed by POP -/

theorem SameFaultRecord.trans {s t u : State} (hst : SameFaultRecord s t) (htu : SameFaultRecord t u) :
    SameFaultRecord s u := by
  obtain ⟨hcause, hpc, hinfo⟩ := hst
  obtain ⟨hcause', hpc', hinfo'⟩ := htu
  exact ⟨hcause'.trans hcause, hpc'.trans hpc, hinfo'.trans hinfo⟩

/-- A step at a legal opcode byte executes its instruction on the two bytes after it, of which the instruction takes
those that its format has (spec/40_fetch_decode_execute.md R80). -/
theorem step_of_opcode {s : State} {m : Mnemonic} (hrun : s.run = .running)
    (hop : s.memRead s.pc = Config.opcodeMap m) :
    step s = exec (m.build (s.memRead (s.pcPlus 1)) (s.memRead (s.pcPlus 2))) s :=
  step_of_fetched hrun (s.fetchDecode_of_opcode hop)

/-- Settles O42: PUSH leaves the two bytes of the POP as they are, so the second step is the POP; it loads the cell that
PUSH wrote, and its increment undoes the decrement. -/
theorem pushThenPop : Obligations.PushThenPop := by
  intro s a b hrun ha hb hpushOp hpushReg hpopOp hpopReg hmissOp hmissReg
  obtain ⟨t, hpush, hspT, -, htop, hmemT, hregT, hpcT, hflT, hrunT, houtT, hrecordT⟩ := pushStoresBelow s a
  obtain ⟨u, hpop, hpopped, -, hregU, hmemU, hpcU, hflU, hrunU, houtU, hrecordU⟩ := popLoadsTop t b
  obtain ⟨hload, hspU⟩ := hpopped hb
  have hstepS : step s = .next t := by
    rw [step_of_opcode (m := .push) hrun hpushOp, hpushReg]
    exact hpush
  have hstepT : step t = .next u := by
    have hop : t.memRead t.pc = 0x46 := by rw [hpcT.pc_eq, hmemT _ hmissOp.symm, hpopOp]
    have hreg : t.memRead (t.pcPlus 1) = regByte b := by rw [hpcT.pcPlus_eq, hmemT _ hmissReg.symm, hpopReg]
    rw [step_of_opcode (m := .pop) (hrunT.trans hrun) hop, hreg]
    exact hpop
  have hcopied : u.readReg b = s.readReg a := by rw [hload, hspT, htop, if_neg ha]
  have hspRestored : u.sp = s.sp := by
    rw [BitVec.eq_of_toNat_eq (hspU.trans (spPop_toNat t.sp).symm), hspT, spPop_spPush]
  have hregs : SameRegsBut [b] s u := by
    intro q hq
    by_cases hq7 : q = 7
    · subst hq7
      exact hspRestored
    · rw [hregU q (by simp [hq7, List.ne_of_not_mem_cons hq]), hregT q (by simp [hq7])]
  exact ⟨t, u, hstepS, hstepT, hcopied, hspRestored, hpcU.pc_eq.trans (hpcT.pcPlus_eq 2), hregs,
    fun x hx => (hmemU x).trans (hmemT x hx), hflU.trans hflT, hrunU.trans hrunT, houtU.trans houtT,
    hrecordT.trans hrecordU⟩

end Sys2Proof.Machine
end

section
/-!
SUPPORT. What a CALL leaves at the top of the stack, and the statements of the family 43_subroutine.md settled with it.
-/

namespace Sys2Proof.Machine

/-- Settles O22: a CALL stores as a push does, with the return address as the byte, and its target is read from the
registers that the decrement leaves. -/
theorem callPushesReturn : Obligations.CallPushesReturn := by
  intro s r
  have hreturn : (s.decSp.storeTop (s.pcPlus 2)).memRead (spPush s.sp) = s.pcPlus 2 :=
    s.memRead_storeTop_decSp_same _
  have htarget : s.decSp.readReg r = if r = 7 then spPush s.sp else s.readReg r := s.readReg_decSp r
  exact ⟨_, exec_call s r, s.sp_decSp, spPush_toNat s.sp, (congrArg BitVec.toNat hreturn).trans (s.pcPlus_toNat 2),
    s.sameMemBut_storeTop_decSp _, htarget, s.sameRegsBut_decSp, rfl, rfl, rfl, rfl, rfl, rfl⟩

theorem State.sameRegsBut_incSp (s : State) : SameRegsBut [7] s s.incSp := fun _ hq =>
  s.readReg_writeReg_ne _ (List.ne_of_not_mem_cons hq)

/-- Settles O23: the byte at the old `SP` goes to `PC` as it is, and the increment writes `R[7]` alone. -/
theorem retPopsPc : Obligations.RetPopsPc := by
  intro s
  have hsp : s.incSp.sp.toNat = (s.sp.toNat + 1) % 256 := by rw [State.sp_incSp, spPop_toNat]
  exact ⟨_, exec_ret s, rfl, hsp, s.sameRegsBut_incSp, fun _ => rfl, rfl, rfl, rfl, rfl, rfl, rfl⟩

/-- After a CALL the stack pointer is one lower and the byte it points at is the return address (spec/43_subroutine.md
R120). -/
theorem stackTop_of_call {s t : State} {r : RegIdx} (h : exec (.call (regByte r)) s = .next t) :
    t.sp = spPush s.sp ∧ t.memRead t.sp = s.pcPlus 2 := by
  obtain rfl := Host.Outcome.next.inj ((exec_call s r).symm.trans h)
  have hsp : ((s.decSp.storeTop (s.pcPlus 2)).setPc (s.decSp.readReg r)).sp = spPush s.sp := s.sp_decSp
  refine ⟨hsp, ?_⟩
  rw [hsp, State.setPc_memRead, State.memRead_storeTop_decSp_same]

/-- Settles O43: the byte that RET moves to `PC` is the return address of the CALL, and its increment undoes the
decrement. -/
theorem callThenRet : Obligations.CallThenRet := by
  intro s t u r hcall hsp htop
  obtain ⟨hspT, htopT⟩ := stackTop_of_call hcall
  refine ⟨_, exec_ret u, ?_, ?_⟩
  · calc
      u.memRead u.sp = t.memRead t.sp := htop
      _ = s.pcPlus 2 := htopT
  · calc
      u.incSp.sp = spPop u.sp := u.sp_incSp
      _ = spPop (spPush s.sp) := by rw [hsp, hspT]
      _ = s.sp := spPop_spPush s.sp

end Sys2Proof.Machine
end

section
/-!
SUPPORT. What CMP writes to `FL` for each order of its two values, when a jump moves `PC` alone, and the statements of
the family 44_compare_branch.md settled with them.
-/

namespace Sys2Proof.Machine

/-! ### CMP -/

/-- The comparison answers the one unsigned relation that holds (spec/44_compare_branch.md R130). -/
theorem compareFlag_cases (x y : Byte) :
    (x.toNat = y.toNat ∧ compareFlag x y = .equal) ∨ (x.toNat > y.toNat ∧ compareFlag x y = .greater) ∨
      (x.toNat < y.toNat ∧ compareFlag x y = .less) := by
  by_cases heq : x = y
  · exact .inl ⟨congrArg BitVec.toNat heq, if_pos heq⟩
  have hne : x.toNat ≠ y.toNat := mt BitVec.eq_of_toNat_eq heq
  by_cases hgt : y.toNat < x.toNat
  · exact .inr (.inl ⟨hgt, (if_neg heq).trans (if_pos hgt)⟩)
  · exact .inr (.inr ⟨by omega, (if_neg heq).trans (if_neg hgt)⟩)

/-- Each value of the comparison is answered for its own relation only, and `NONE` never (spec/44_compare_branch.md
R130). -/
theorem compareFlag_iff (x y : Byte) :
    (compareFlag x y = .equal ↔ x.toNat = y.toNat) ∧ (compareFlag x y = .greater ↔ x.toNat > y.toNat) ∧
      (compareFlag x y = .less ↔ x.toNat < y.toNat) ∧ compareFlag x y ≠ .none := by
  rcases compareFlag_cases x y with ⟨hrel, hflag⟩ | ⟨hrel, hflag⟩ | ⟨hrel, hflag⟩ <;> simp [hflag] <;> omega

/-- Settles O24: CMP writes `FL` alone with the comparison of its registers, and the sequential update moves `PC`
alone. -/
theorem cmpWritesFlags : Obligations.CmpWritesFlags := by
  intro s ra rb
  obtain ⟨hequal, hgreater, hless, hnone⟩ := compareFlag_iff (s.readReg ra) (s.readReg rb)
  exact ⟨_, exec_cmp s ra rb, hequal, hgreater, hless, hnone, fun _ _ => rfl, s.pcPlus_toNat 3, fun _ => rfl, rfl, rfl,
    rfl, rfl, rfl⟩

/-! ### JMP, JEQ and JNE -/

/-- JEQ and JNE see one fact of `FL` (spec/40_fetch_decode_execute.md R90). -/
theorem Flag.isEqual_iff (f : Flag) : f.isEqual = true ↔ f = .equal := beq_iff_eq

/-- An instruction that completes by setting `PC` has the frame of the jumps (spec/44_compare_branch.md R131 to
R133). -/
theorem Completes.movesPcOnly {s : State} {i : Instr} {p : Byte} (h : Completes s i (s.setPc p)) :
    MovesPcOnly i p s :=
  ⟨_, h.exec_eq, rfl, fun _ _ => rfl, fun _ => rfl, rfl, rfl, rfl, rfl, rfl, rfl⟩

/-- Settles O25: each of the three completes by setting `PC`, JEQ and JNE to the target that `FL = EQUAL` selects. -/
theorem jumpsMovePcOnly : Obligations.JumpsMovePcOnly := by
  intro s r
  refine ⟨s.pcPlus_toNat 2, (Completes.jmp r).movesPcOnly, ?_, ?_⟩
  · simpa only [Flag.isEqual_iff] using (Completes.jeq (s := s) r).movesPcOnly
  · simpa only [Flag.isEqual_iff] using (Completes.jne (s := s) r).movesPcOnly

/-- Settles O26: the two targets are selected by the one fact `FL = EQUAL`, in opposite order. -/
theorem jeqJneComplement : Obligations.JeqJneComplement := by
  intro s r
  obtain ⟨-, -, ⟨t, hjeq, hpcT, -⟩, ⟨u, hjne, hpcU, -⟩⟩ := jumpsMovePcOnly s r
  refine ⟨t, u, hjeq, hjne, ?_⟩
  by_cases heq : s.fl = .equal
  · exact .inl ⟨hpcT.trans (if_pos heq), hpcU.trans (if_pos heq)⟩
  · exact .inr ⟨hpcT.trans (if_neg heq), hpcU.trans (if_neg heq)⟩

end Sys2Proof.Machine
end

section
/-!
SUPPORT. The shifts of a byte on integers, what the register-level ALU answers for each answer of the value level, and
the statements of the family 45_alu.md settled with them.
-/

namespace Sys2Proof.Machine

/-! ### The shifts on integers -/

section
variable (x : Byte) (n : Nat)

/-- A left shift multiplies modulo 256 (spec/45_alu.md R147). -/
theorem shiftLeft_toNat : (x <<< n).toNat = x.toNat * 2 ^ n % 256 := by
  rw [BitVec.toNat_shiftLeft, Nat.shiftLeft_eq]

/-- A right shift divides (spec/45_alu.md R148). -/
theorem shiftRight_toNat : (x >>> n).toNat = x.toNat / 2 ^ n := by
  rw [BitVec.toNat_ushiftRight, Nat.shiftRight_eq_div_pow]

end

/-! ### The register-level ALU -/

section
variable {op : Option AluOp} {ra rb : RegIdx} {s : State}

theorem alu_of_value {v : Byte} (h : aluVal op (s.readReg ra) (s.readReg rb) = .value v) :
    alu op ra rb s = .ok (s.writeReg ra v) := by rw [alu, h]

theorem alu_of_flags {f : Flag} (h : aluVal op (s.readReg ra) (s.readReg rb) = .flags f) :
    alu op ra rb s = .ok { s with fl := f } := by rw [alu, h]

theorem alu_of_fault {c : FaultCause} (h : aluVal op (s.readReg ra) (s.readReg rb) = .fault c) :
    alu op ra rb s = .error c := by rw [alu, h]

end

theorem State.sameRegsBut_writeReg (s : State) (r : RegIdx) (v : Byte) : SameRegsBut [r] s (s.writeReg r v) :=
  fun _ hq => s.readReg_writeReg_ne v (List.ne_of_not_mem_cons hq)

/-! ### The statements -/

/-- Settles O29: both shifts take the whole byte `R[b]` as their amount, and from the width of a byte on no bit is
left. -/
theorem shiftsByWholeByte : Obligations.ShiftsByWholeByte := fun s ra rb =>
  ⟨_, _, writesRegOnly_of_exec_eq (exec_shl s ra rb), shiftLeft_toNat .., writesRegOnly_of_exec_eq (exec_shr s ra rb),
    shiftRight_toNat .., fun hwide => ⟨BitVec.shiftLeft_eq_zero hwide, BitVec.ushiftRight_eq_zero hwide⟩⟩

/-- Settles O46: each row of the value level is one operation on bytes, and the register level writes the value or the
flags that the value level answers, or hands its fault on. -/
theorem aluAsOneFunction : Obligations.AluAsOneFunction := by
  refine ⟨fun x y => ?rows, fun op ra rb s => ⟨fun v hv => ?value, fun f hf => alu_of_flags hf,
    fun c hc => alu_of_fault hc⟩⟩
  case rows =>
    have hmodZero : y = 0 → aluVal (some .mod) x y = .fault .divisionByZero := fun hy => hy ▸ aluVal_mod_zero x
    have hmod (hy : y ≠ 0) : ∃ v, aluVal (some .mod) x y = .value v ∧ v.toNat = x.toNat % y.toNat :=
      ⟨_, aluVal_mod hy, BitVec.toNat_umod⟩
    obtain ⟨hequal, hgreater, hless, -⟩ := compareFlag_iff x y
    exact ⟨⟨_, rfl, BitVec.toNat_add x y⟩, ⟨_, rfl, BitVec.toNat_mul x y⟩, ⟨_, rfl, fun _ => BitVec.getLsbD_and⟩,
      ⟨_, rfl, fun _ => BitVec.getLsbD_or⟩, ⟨_, rfl, fun _ => BitVec.getLsbD_xor⟩, ⟨_, rfl, BitVec.toNat_not⟩,
      hmodZero, hmod, ⟨_, rfl, shiftLeft_toNat x y.toNat⟩, ⟨_, rfl, shiftRight_toNat x y.toNat⟩,
      ⟨_, rfl, hequal, hgreater, hless⟩, rfl⟩
  case value =>
    exact ⟨_, alu_of_value hv, s.readReg_writeReg_same ra v, s.sameRegsBut_writeReg ra v, rfl⟩

/-- Settles O27: addition and multiplication of bytes are those of integers modulo 256. -/
theorem arithmeticWritesModulo256 : Obligations.ArithmeticWritesModulo256 := fun s ra rb =>
  ⟨_, _, writesRegOnly_of_exec_eq (exec_add s ra rb), BitVec.toNat_add ..,
    writesRegOnly_of_exec_eq (exec_mul s ra rb), BitVec.toNat_mul ..⟩

/-- Settles O28: the operations on bytes are bit by bit, and the complement of all bits is the difference from 255. -/
theorem bitwiseWritesBits : Obligations.BitwiseWritesBits := fun s ra rb =>
  ⟨_, _, _, _, ⟨writesRegOnly_of_exec_eq (exec_and s ra rb), fun _ => BitVec.getLsbD_and⟩,
    ⟨writesRegOnly_of_exec_eq (exec_or s ra rb), fun _ => BitVec.getLsbD_or⟩,
    ⟨writesRegOnly_of_exec_eq (exec_xor s ra rb), fun _ => BitVec.getLsbD_xor⟩,
    ⟨writesRegOnly_of_exec_eq (exec_not s ra), BitVec.toNat_not⟩⟩

/-- Settles O30: with a divisor other than 0 the ALU answers the remainder, which on bytes is that of integers. -/
theorem modWritesRemainder : Obligations.ModWritesRemainder := fun s ra rb hne =>
  ⟨_, writesRegOnly_of_exec_eq (exec_mod s ra rb hne), BitVec.toNat_umod⟩

end Sys2Proof.Machine
end

section
/-!
SUPPORT. The statement of the family 46_halt.md, settled with the rule of HLT and the sequential update of `PC`.
-/

namespace Sys2Proof.Machine

/-- Settles O32: HLT writes `RUN` alone, and the sequential update moves `PC` alone, past its one byte. -/
theorem hltHalts : Obligations.HltHalts := fun s =>
  ⟨_, exec_hlt s, rfl, s.pcPlus_toNat 1, fun _ _ => rfl, fun _ => rfl, rfl, rfl, rfl, rfl, rfl⟩

end Sys2Proof.Machine
end

section
/-!
SUPPORT. Which causes the order of checks can decide, and the statements of the family 60_exceptions.md, settled with
what one execution and one step can do.
-/

namespace Sys2Proof.Machine

/-! ### The causes of an instruction and of a step -/

section
variable {s t : State} {i : Instr} {c : FaultCause} {info : Byte}

/-- Executing an instruction has two causes, and a division by zero is that of a MOD (spec/60_exceptions.md R173,
R174). -/
theorem FaultOf.cause_cases (h : FaultOf i s c info) :
    c = .invalidRegister ∨ c = .divisionByZero ∧ DividesByZero i s := by
  rcases h with ⟨-, hc⟩ | ⟨-, hdiv, hc, -⟩
  · exact .inl hc
  · exact .inr ⟨hc, hdiv⟩

/-- The ALU's own error is none of the causes a step has (spec/60_exceptions.md R172). -/
theorem StepFaultOf.cause_ne_invalidALUOperation (h : StepFaultOf s c info) : c ≠ .invalidALUOperation := by
  rcases h with ⟨-, rfl, -⟩ | ⟨i, -, hf⟩
  · nofun
  · rcases hf.cause_cases with rfl | ⟨rfl, -⟩ <;> nofun

/-- An instruction that completes does not enter FAULTED (spec/10_state.md R25). -/
theorem Completes.run_ne_faulted (h : Completes s i t) (hrun : s.run = .running) : t.run ≠ .faulted := by
  rw [h.run_eq, hrun]
  split <;> nofun

end

/-! ### The statements -/

/-- Settles O10: where the lookup finds no row there is nothing to fetch, so the fault that the step decides is
InvalidOpcode; the bytes without a row are those no mnemonic is mapped to. -/
theorem illegalOpcodeFaults : Obligations.IllegalOpcodeFaults := by
  refine ⟨fun s hrun hnone => ?_, fun _ => decodeOpWith_eq_none, countP_decodeOp_isNone, by decide, by decide, rfl⟩
  have hf : StepFaultOf s .invalidOpcode (s.memRead s.pc) := .inl ⟨s.fetchDecode_eq_none.mpr hnone, rfl, rfl⟩
  exact ⟨_, step_of_stepFaultOf hrun hf, s.faultEntered_enterFault _ _⟩

/-- Settles O15: a step that ends in FAULTED completed nothing, so all it did is fault entry. -/
theorem faultsArePrecise : Obligations.FaultsArePrecise := by
  intro s t hrun hstep hfaulted
  rcases step_next_cases hrun hstep with ⟨c, info, -, rfl⟩ | ⟨i, -, ht⟩
  · exact s.faultEntered_enterFault c info
  · exact absurd hfaulted (ht.run_ne_faulted hrun)

/-- Settles O31: MOD raises the ALU's fault on a zero divisor. Conversely an execution that brings the cause into the
record has raised it, since completing keeps the record, and of the causes an instruction has only that of MOD is this
one. -/
theorem modByZeroFaults : Obligations.ModByZeroFaults := by
  refine ⟨fun s ra rb hzero => ⟨_, exec_mod_zero s ra rb hzero, s.faultEntered_enterFault _ _⟩,
    fun i s t hexec hold hnew => ?onlyMod, rfl, rfl⟩
  case onlyMod =>
    rcases exec_next_cases hexec with ⟨c, info, hf, rfl⟩ | ht
    · obtain rfl : c = .divisionByZero := hnew
      rcases hf.cause_cases with hc | ⟨-, hdiv⟩
      · cases hc
      · exact hdiv
    · obtain ⟨hcause, -, -⟩ := ht.sameFaultRecord
      exact absurd (hcause.symm.trans hnew) hold

/-- Settles O47: a step records a cause that the order of checks decides, which is never the ALU's own error, or keeps
the record. -/
theorem aluErrorUnreachable : Obligations.AluErrorUnreachable := by
  intro s t hstep hold
  by_cases hrun : s.run = .running
  · rcases step_next_cases hrun hstep with ⟨c, info, hf, rfl⟩ | ⟨i, -, ht⟩
    · exact hf.cause_ne_invalidALUOperation
    · obtain ⟨hcause, -, -⟩ := ht.sameFaultRecord
      rwa [hcause]
  · rwa [Host.Outcome.next.inj (hstep.symm.trans (step_not_running s hrun))]

end Sys2Proof.Machine
end

section
/-!
SUPPORT. What the registers hold at reset and after a start, and the statements of the family
70_reset_and_hazards.md: an accepted start, the state it boots into, and the progress of the step.
-/

namespace Sys2Proof.Machine

/-! ### The registers at reset and after a start -/

theorem State.reset_readReg : ∀ r : RegIdx, State.reset.readReg r = 0 := by decide

theorem State.readReg_startRun_sp (s : State) : s.startRun.readReg Config.spIndex = Config.spInit :=
  s.readReg_writeReg_same _ _

/-- The stack pointer is the only register a start writes (spec/70_reset_and_hazards.md R203). -/
theorem State.sameRegsBut_startRun (s : State) : SameRegsBut [7] s s.startRun :=
  s.sameRegsBut_writeReg Config.spIndex Config.spInit

/-! ### The statements -/

/-- Settles O12: in RUNNING the step enters a fault or completes the fetched instruction, and fault entry has a next
state too; outside RUNNING the state is held. -/
theorem stepIsTotal : Obligations.StepIsTotal := by
  intro s
  by_cases hrun : s.run = .running
  · rcases step_cases hrun with ⟨c, info, -, hfault⟩ | ⟨_, t, -, -, hcompleted⟩
    · exact ⟨s.enterFault c info, hfault⟩
    · exact ⟨t, hcompleted⟩
  · exact ⟨s, step_not_running s hrun⟩

/-- Settles O57: in IDLE the start answers `startRun`, which writes `R[7]` and `RUN` alone. -/
theorem startBeginsRun : Obligations.StartBeginsRun := fun s =>
  ⟨fun hidle => ⟨_, hostStart_of_idle hidle, s.readReg_startRun_sp, rfl, s.sameRegsBut_startRun, rfl⟩,
    hostStart_of_not_idle⟩

/-- Settles O58: the load leaves all of the reset state but memory, and the start then leaves all but `R[7]` and
`RUN`. -/
theorem bootState : Obligations.BootState := by
  intro image hlen
  obtain ⟨s, hload, hs, hmem⟩ := loadWritesImage image State.reset rfl hlen
  have hidle : s.run = .idle := by rw [hs]; rfl
  have hregs : ∀ r, s.readReg r = 0 := by rw [hs]; exact State.reset_readReg
  obtain ⟨t, hstart, hsp, hrunning, hsame, ht⟩ := (startBeginsRun s).1 hidle
  have hzero : ∀ r, r ≠ 7 → t.readReg r = 0 := fun r hr =>
    (hsame r (mt List.mem_singleton.mp hr)).trans (hregs r)
  have hread : ∀ x : Byte, t.memRead x = image.getD x.toNat 0 := by rw [ht]; exact hmem
  have hrest : t.pc = 0 ∧ t.fl = .none ∧ t.out = [] := by rw [ht, hs]; exact ⟨rfl, rfl, rfl⟩
  obtain ⟨hpc, hfl, hout⟩ := hrest
  exact ⟨s, t, hload, hstart, hzero, hsp, hpc, hfl, hrunning, hread, hout⟩

end Sys2Proof.Machine
end
